-- ==== Sys2Proof/Word.lean ====
section
/-! DEFINITION. The words of the machine and their plainest arithmetic (spec 00_scope.md R7, R8, R10). -/

namespace Sys2Proof

/-- One byte: a register, a memory location, a timer (R8, R20, R26, R50). -/
abbrev Byte := BitVec 8

/-- Four bits: one digit of an instruction word (R7). -/
abbrev Nibble := BitVec 4

/-- Sixteen bits: an instruction word, pc, I, a return address (R23, R24, R25, R70). -/
abbrev Word := BitVec 16

/-- Twelve bits: the absolute address field NNN (R71). -/
abbrev Addr12 := BitVec 12

/-- A register index, always 0..15 by construction (R22). -/
abbrev Reg := Fin 16

/-- `trunc_8(v) = v mod 256` (R8). -/
def trunc8 (v : Nat) : Byte := BitVec.ofNat 8 v

/-- `zext_16` of an address field (R8, R71). -/
def zext16 (a : Addr12) : Word := a.setWidth 16

@[simp] theorem trunc8_toNat (v : Nat) : (trunc8 v).toNat = v % 256 := by
  simp [trunc8]

@[simp] theorem zext16_toNat (a : Addr12) : (zext16 a).toNat = a.toNat := by
  have := a.isLt
  simp [zext16]
  omega

end Sys2Proof
end

