-- ==== Sys2Proof/Config.lean ====
section
/-! DEFINITION. What the spec leaves to a parameter (00_scope.md R6, 92_eei_decisions.md) and the two free values. -/

namespace Sys2Proof.Config

/-- `ODD_PC_FETCH`: what a fetch at an odd pc does (R58, D10). -/
inductive OddPcFetch where
  | fault   -- raise MisalignedFetch
  | read    -- fetch the two bytes, no alignment check
deriving DecidableEq, Repr

/-- `SHIFT_SOURCE`: the register that 8XY6 and 8XYE shift (R168, R170, D12). -/
inductive ShiftSource where
  | vx
  | vy
deriving DecidableEq, Repr

/-- `UPPERCASE_HEX_KEYS`: whether the key characters 'A' to 'F' are keys (R325, D31). -/
inductive UppercaseHexKeys where
  | ignored
  | accepted
deriving DecidableEq, Repr

/-- The parameters that a rule of the spec reads. They are fixed for a machine and held in its state, so that a
statement about every state is a statement about every choice (log 9). -/
structure Params where
  oddPcFetch       : OddPcFetch
  shiftSource      : ShiftSource
  uppercaseHexKeys : UppercaseHexKeys
deriving DecidableEq, Repr

/-- FREE VALUE (log 4): `rand8`, the byte that the n-th CXNN of a run draws.
It follows no law (R34, R171, D23, U4), so it has no body. -/
opaque randomByte : Nat → Byte

/-- The key characters that reach the listener during one iteration of the loop: those ordered before its snapshot,
and those ordered after the snapshot and before its `ClearAll` (R62, R320, R349). The model's own (log 3). -/
structure KeyInput where
  before : List Char
  during : List Char
deriving DecidableEq, Repr, Inhabited

/-- FREE VALUE (log 3): the key characters of the n-th iteration of the loop.
The schedule follows no law and need not end: keys may arrive in infinitely many iterations, or in none (R18, R320,
R321, D38, U13), so it has no body. -/
opaque keyInput : Nat → KeyInput

end Sys2Proof.Config
end

