-- ==== Sys2Proof/Machine/Parameters.lean ====
section
/-! DEFINITION. The default of each parameter that a rule reads (00_scope.md R6; log 9). -/

namespace Sys2Proof.Machine

/-- The defaults of R6: `ODD_PC_FETCH = Fault` (D10), `SHIFT_SOURCE = VX` (D12), `UPPERCASE_HEX_KEYS = Ignored` (D31). -/
def defaultParams : Config.Params :=
  { oddPcFetch := .fault, shiftSource := .vx, uppercaseHexKeys := .ignored }

end Sys2Proof.Machine
end

