-- ==== Sys2Proof/Syntax.lean ====
section
/-! DEFINITION. The instructions: one constructor per row of spec/opcode_table.json, named and ordered as the
micro-operations of 30_encoding.md R73 and R79. -/

namespace Sys2Proof

/-- The micro-operations of R79. `x` and `y` are register indices, `nn` a byte, `nnn` an address field, `n` the
height of a sprite (R71). -/
inductive Instr where
  | clearScreen                              -- 00E0 CLS            R237
  | ret                                      -- 00EE RET            R120
  | jump (nnn : Addr12)                      -- 1NNN JP nnn         R121
  | call (nnn : Addr12)                      -- 2NNN CALL nnn       R122
  | skipEqImm (x : Reg) (nn : Byte)          -- 3XNN SE Vx, nn      R140
  | skipNeImm (x : Reg) (nn : Byte)          -- 4XNN SNE Vx, nn     R141
  | skipEqReg (x y : Reg)                    -- 5XY0 SE Vx, Vy      R142
  | skipNeReg (x y : Reg)                    -- 9XY0 SNE Vx, Vy     R143
  | loadImm (x : Reg) (nn : Byte)            -- 6XNN LD Vx, nn      R160
  | addImm (x : Reg) (nn : Byte)             -- 7XNN ADD Vx, nn     R161
  | move (x y : Reg)                         -- 8XY0 LD Vx, Vy      R162
  | or (x y : Reg)                           -- 8XY1 OR Vx, Vy      R163
  | and (x y : Reg)                          -- 8XY2 AND Vx, Vy     R164
  | xor (x y : Reg)                          -- 8XY3 XOR Vx, Vy     R165
  | addCarry (x y : Reg)                     -- 8XY4 ADD Vx, Vy     R166
  | subNotBorrow (x y : Reg)                 -- 8XY5 SUB Vx, Vy     R167
  | shiftRight (x y : Reg)                   -- 8XY6 SHR Vx, Vy     R168
  | reverseSub (x y : Reg)                   -- 8XY7 SUBN Vx, Vy    R169
  | shiftLeft (x y : Reg)                    -- 8XYE SHL Vx, Vy     R170
  | loadIndex (nnn : Addr12)                 -- ANNN LD I, nnn      R200
  | jumpV0 (nnn : Addr12)                    -- BNNN JP V0, nnn     R123
  | random (x : Reg) (nn : Byte)             -- CXNN RND Vx, nn     R171
  | draw (x y : Reg) (n : Nibble)            -- DXYN DRW Vx, Vy, n  R238
  | skipKey (x : Reg)                        -- EX9E SKP Vx         R144
  | skipNotKey (x : Reg)                     -- EXA1 SKNP Vx        R145
  | readDelay (x : Reg)                      -- FX07 LD Vx, DT      R260
  | setDelay (x : Reg)                       -- FX15 LD DT, Vx      R261
  | setSound (x : Reg)                       -- FX18 LD ST, Vx      R262
  | addIndex (x : Reg)                       -- FX1E ADD I, Vx      R201
  | fontAddr (x : Reg)                       -- FX29 LD F, Vx       R202
  | storeBcd (x : Reg)                       -- FX33 LD B, Vx       R203
  | storeRegs (x : Reg)                      -- FX55 LD [I], Vx     R204
  | loadRegs (x : Reg)                       -- FX65 LD Vx, [I]     R205
  | waitKey (x : Reg)                        -- FX0A LD Vx, K       R263
deriving DecidableEq, Repr

end Sys2Proof
end

