-- ==== Sys2Proof/Machine/State.lean ====
section
/-! DEFINITION. The state of the machine (10_state.md), its fault records (60_exceptions.md R300), and the state
after reset (70_reset_and_hazards.md R340). -/

namespace Sys2Proof.Machine

/-- The kinds of fault with their info (R300). A step raises one by `Machine.raise`; taking it is a next state. -/
inductive FaultKind where
  | decodeError (w : Word)            -- code 1, R301
  | stackOverflow                     -- code 2, R302
  | stackUnderflow                    -- code 3, R303
  | memoryOutOfRange (addr : Nat)     -- code 4, R304
  | fetchOutOfRange                   -- code 5, R305
  | misalignedFetch                   -- code 6, R306
  | keyIndexOutOfRange (k : Byte)     -- code 7, R307
  | indexOverflow                     -- code 8, R308
deriving DecidableEq, Repr

/-- A fault record: its kind (which gives its code and holds its info) and the address of the instruction whose step
faulted (R300). -/
structure FaultRecord where
  kind : FaultKind
  pc   : Word
deriving DecidableEq, Repr

/-- `status` (R31). -/
inductive Status where
  | running
  | faulted (f : FaultRecord)
deriving DecidableEq, Repr

/-- What `execute_one` returns: `Continue`, `BlockForIO` or `Fault(f)` (R13, R100, C5). -/
inductive StepStatus where
  | continued
  | blockForIO
  | fault (f : FaultRecord)
deriving DecidableEq, Repr

/-- Memory `M` as the list of the bytes that differ from the reset image, addresses strictly rising (R50).
What an unlisted address reads as is `Machine.background`. -/
structure Memory where
  cells : List Host.Cell
deriving DecidableEq, Repr

/-- The framebuffer: 32 rows, top to bottom, of 64 pixels, left to right (R28). -/
structure Framebuffer where
  rows : Vector (Vector Bool 64) 32
deriving DecidableEq, Repr

/-- The 16 slots of the keypad array, and of a snapshot of it (R29, R30). -/
abbrev Keypad := Vector Bool 16

/-- Everything the spec gives the machine (10_state.md), the inputs and outputs of a step that R13 and R318 name,
and three fields of the model's own (`draws`, log 4; `inputs` and `iterations`, log 3). -/
structure State where
  /-- V0..VF (R20); `V[15]` is VF (R21). -/
  v        : Vector Byte 16
  /-- The index register I (R23). -/
  index    : Word
  /-- The program counter (R24). -/
  pc       : Word
  /-- The call stack, oldest entry first; sp is its length (R25). -/
  stack    : List Word
  /-- The delay timer (R26). -/
  delay    : Byte
  /-- The sound timer (R27). -/
  sound    : Byte
  /-- The framebuffer FB (R28). -/
  fb       : Framebuffer
  /-- Memory M (R50). -/
  mem      : Memory
  /-- Run status (R31). -/
  status   : Status
  /-- The host's keypad array (R30). -/
  keypad   : Keypad
  /-- The snapshot K of the current step (R29). -/
  snapshot : Keypad
  /-- What the last `execute_one` returned (R13). -/
  returned : Option StepStatus
  /-- The pixels the rendering step last read, row-major (R236, R318; log 5). -/
  rendered : Option (List Bool)
  /-- How many random bytes have been drawn (log 4). -/
  draws    : Nat
  /-- The key characters prescribed for the next iterations, next first; past its end they are free (log 3). -/
  inputs   : List Config.KeyInput
  /-- How many iterations the loop has made: the argument of the free key characters (log 3). -/
  iterations : Nat
  /-- The parameters this machine was built with (R6, log 9). -/
  params   : Config.Params
deriving DecidableEq, Repr

/-- Why a step stops. -/
inductive Fault where
  /-- Raised by `Machine.step` alone, in status `Faulted(f)`: "the machine has no step" there (R101, R313).
  Safe: it is the spec's own end of a run. -/
  | stopped (f : FaultRecord)
deriving DecidableEq, Repr

/-- Why the model declines an instruction. -/
inductive Refusal where
  /-- Raised by an arm of `exec` whose instruction has no meaning yet; no arm raises it. Safe. -/
  | notModelled (mnemonic : String)
deriving DecidableEq, Repr

/-- The outcome of a step or of a meaning. -/
abbrev Result := Host.Outcome State Fault Refusal

/-- The state before the first step, without a ROM (R340, R343 step 1). -/
def State.reset : State where
  v := Vector.replicate 16 0#8
  index := 0#16
  pc := 0x200#16
  stack := []
  delay := 0#8
  sound := 0#8
  fb := ⟨Vector.replicate 32 (Vector.replicate 64 false)⟩
  mem := ⟨[]⟩
  status := .running
  keypad := Vector.replicate 16 false
  snapshot := Vector.replicate 16 false
  returned := none
  rendered := none
  draws := 0
  inputs := []
  iterations := 0
  params := defaultParams

end Sys2Proof.Machine
end

