-- ==== Sys2Proof/Machine/Memory.lean ====
section
/-! DEFINITION. Memory: the reset image, one-byte reads and writes, blocks, and the range check of a block
(20_memory.md R50 to R55, R67). -/

namespace Sys2Proof.Machine

/-- Glyphs 0 to 7 of the default `FONT` (R52; PRESUMED, log 8). -/
def fontLow : List Byte :=
  [0xF0, 0x90, 0x90, 0x90, 0xF0] ++ [0x20, 0x60, 0x20, 0x20, 0x70] ++
  [0xF0, 0x10, 0xF0, 0x80, 0xF0] ++ [0xF0, 0x10, 0xF0, 0x10, 0xF0] ++
  [0x90, 0x90, 0xF0, 0x10, 0x10] ++ [0xF0, 0x80, 0xF0, 0x10, 0xF0] ++
  [0xF0, 0x80, 0xF0, 0x90, 0xF0] ++ [0xF0, 0x10, 0x20, 0x40, 0x40]

/-- Glyphs 8 to F of the default `FONT` (R52; PRESUMED, log 8). -/
def fontHigh : List Byte :=
  [0xF0, 0x90, 0xF0, 0x90, 0xF0] ++ [0xF0, 0x90, 0xF0, 0x10, 0xF0] ++
  [0xF0, 0x90, 0xF0, 0x90, 0x90] ++ [0xE0, 0x90, 0xE0, 0x90, 0xE0] ++
  [0xF0, 0x80, 0x80, 0x80, 0xF0] ++ [0xE0, 0x90, 0x90, 0x90, 0xE0] ++
  [0xF0, 0x80, 0xF0, 0x80, 0xF0] ++ [0xF0, 0x80, 0xF0, 0x80, 0x80]

/-- The 80 bytes of the default `FONT`, glyph d at `5*d` (R52). -/
def font : List Byte := fontLow ++ fontHigh

/-- What an unlisted address reads as: the reset image without a ROM, the font at 0..79 and 0 above it
(R51, R340; D6, log 7). -/
def background (a : Nat) : Byte := if a < 80 then font.getD a 0#8 else 0#8

/-- The byte listed for an address, if any. -/
def findCell : List Host.Cell → Nat → Option Byte
  | [], _ => none
  | c :: rest, a => if c.1 = a then some c.2 else findCell rest a

/-- `M[a]` (R53). Block operations check the range before they read (R55); no instruction reads above 4095. -/
def Memory.read (m : Memory) (a : Nat) : Byte := (findCell m.cells a).getD (background a)

/-- The canonical entry for one byte: none where the byte is the background's. -/
def entry (a : Nat) (b : Byte) : List Host.Cell := if b = background a then [] else [(a, b)]

/-- Put one byte into a list of cells that rises by address. -/
def putCell (a : Nat) (b : Byte) : List Host.Cell → List Host.Cell
  | [] => entry a b
  | c :: rest =>
    if a < c.1 then entry a b ++ c :: rest
    else if a = c.1 then entry a b ++ rest
    else c :: putCell a b rest

/-- `M[a] <- b` (R54). -/
def Memory.write (m : Memory) (a : Nat) (b : Byte) : Memory := ⟨putCell a b m.cells⟩

/-- The canonical form: addresses rise strictly, every listed address exists (R50), and no listed byte is the
background's. -/
abbrev Memory.wf (m : Memory) : Prop :=
  m.cells.Pairwise (fun c d => c.1 < d.1) ∧ ∀ c ∈ m.cells, c.1 ≤ 4095 ∧ c.2 ≠ background c.1

/-- The bytes at `a`, `a+1`, …, `a+n-1`, ascending (R55). -/
def Memory.readBlock (m : Memory) (a : Nat) : Nat → List Byte
  | 0 => []
  | n + 1 => m.read a :: m.readBlock (a + 1) n

/-- Write bytes at `a`, `a+1`, …, ascending (R55). -/
def Memory.writeBlock (m : Memory) (a : Nat) : List Byte → Memory
  | [] => m
  | b :: bs => (m.write a b).writeBlock (a + 1) bs

/-- The range check of an access to `n` bytes from `base`, made before any of them (R55): the lowest address above
4095 in the range, `max(base, 4096)`, if there is one (R304). -/
def rangeFault (base n : Nat) : Option Nat :=
  if 0 < n ∧ 4095 < base + n - 1 then some (max base 4096) else none

end Sys2Proof.Machine
end

