-- ==== Sys2Proof/Machine/Ops.lean ====
section
/-! DEFINITION. The named operations on the state: registers, stack, timers, the end of a completed step
(40_cycle.md R104 to R107), and taking a fault (R108, R313). There is no return from a fault (R314). -/

namespace Sys2Proof.Machine

/-! ## Registers and single fields -/

/-- `V[x]` (R10, R20). -/
def State.getV (s : State) (x : Reg) : Byte := s.v[x.val]

/-- `V[x] <- b` (R10, R20). -/
def State.setV (s : State) (x : Reg) (b : Byte) : State := { s with v := s.v.set x.val b }

/-- VF, register 15 (R21). -/
abbrev vf : Reg := 15

/-- `V[x] <- b; V[15] <- flag`, the flag last, so that for X = F the flag survives (R21, R347; D13, log 13). -/
def State.setVFlag (s : State) (x : Reg) (b flag : Byte) : State := (s.setV x b).setV vf flag

/-- Write the whole register file. -/
def State.setRegs (s : State) (v : Vector Byte 16) : State := { s with v := v }

/-- `I <- w` (R23). -/
def State.setIndex (s : State) (w : Word) : State := { s with index := w }

/-- Replace the call stack (R25). -/
def State.setStack (s : State) (l : List Word) : State := { s with stack := l }

/-- `delay <- b` (R26). -/
def State.setDelay (s : State) (b : Byte) : State := { s with delay := b }

/-- `sound <- b` (R27). -/
def State.setSound (s : State) (b : Byte) : State := { s with sound := b }

/-- Replace the framebuffer (R28). -/
def State.setFb (s : State) (f : Framebuffer) : State := { s with fb := f }

/-- Replace the memory (R50). -/
def State.setMem (s : State) (m : Memory) : State := { s with mem := m }

/-- Count one random draw (log 4). -/
def State.countDraw (s : State) : State := { s with draws := s.draws + 1 }

/-! ## The call stack (R25) -/

/-- `Push(v)`: none where 16 entries are stacked (StackOverflow). -/
def push (l : List Word) (v : Word) : Option (List Word) :=
  if l.length < 16 then some (l ++ [v]) else none

/-- `Pop()`: the last entry and the stack without it, or none where the stack is empty (StackUnderflow). -/
def pop (l : List Word) : Option (Word × List Word) :=
  match l.getLast? with
  | some t => some (t, l.dropLast)
  | none => none

/-! ## The end of a step -/

/-- The program-counter effect of an instruction (R104). -/
inductive Effect where
  | increment
  | skip (p : Bool)
  | jump (t : Word)
  | halt
deriving DecidableEq, Repr

/-- The new pc, from the pc of the fetched instruction (R105). -/
def newPc (e : Effect) (pc : Word) : Word :=
  match e with
  | .increment => pc + 2#16
  | .skip true => pc + 4#16
  | .skip false => pc + 2#16
  | .jump t => t
  | .halt => pc

/-- A timer after one completed step: one less, floored at 0 (R106). -/
def countDown (b : Byte) : Byte := if b = 0#8 then 0#8 else b - 1#8

/-- The end of a step that has not faulted. `Halt` writes nothing and returns BlockForIO (R107); every other effect
sets pc, counts both timers down after the instruction's own writes, and returns Continue (R105, R106). -/
def finish (e : Effect) (s : State) : State :=
  match e with
  | .halt => { s with returned := some .blockForIO }
  | e => { s with
      pc := newPc e s.pc
      delay := countDown s.delay
      sound := countDown s.sound
      returned := some .continued }

/-- An instruction that ran: its writes, in `s`, and its effect. -/
def complete (e : Effect) (s : State) : Host.Outcome State Fault Refusal := .next (finish e s)

/-! ## Taking a fault -/

/-- The code of a fault kind (R300; D21). -/
def FaultKind.code : FaultKind → Nat
  | .decodeError _ => 1
  | .stackOverflow => 2
  | .stackUnderflow => 3
  | .memoryOutOfRange _ => 4
  | .fetchOutOfRange => 5
  | .misalignedFetch => 6
  | .keyIndexOutOfRange _ => 7
  | .indexOverflow => 8

/-- The state after the step at `s` raised a fault: `status <- Faulted(f)` with the faulting instruction's pc, all
other state of the machine as it was before the step, and Fault(f) returned (R108, R300, R313). -/
def faultState (k : FaultKind) (s : State) : State :=
  { s with
    status := .faulted ⟨k, s.pc⟩
    returned := some (.fault ⟨k, s.pc⟩) }

/-- `raise k`: taking a fault is a next state (R108, R313; log 1). Called on the state before any write of the step. -/
def raise (k : FaultKind) (s : State) : Host.Outcome State Fault Refusal := .next (faultState k s)

end Sys2Proof.Machine
end

