-- ==== Sys2Proof/Machine/Boot.lean ====
section
/-! DEFINITION. Boot: building the reset state for a choice of parameters and font, and loading the ROM
(70_reset_and_hazards.md R340 to R343, 60_exceptions.md R310; log 23). -/

namespace Sys2Proof.Machine

/-- The reset state of R340, without a ROM, of a machine with these parameters and this `FONT` (R6, R343 step 1). -/
def powerOn (p : Config.Params) (fontBytes : Vector Byte 80) : State :=
  { State.reset with
    params := p
    mem := State.reset.mem.writeBlock 0 fontBytes.toList }

/-- The outcome of a load: the loaded machine, or a load error, reported to the user before the interpreter is
entered, with memory unmodified (R310, R342). -/
inductive LoadResult where
  | loaded (s : State)
  | loadError
deriving DecidableEq, Repr

/-- Load a ROM verbatim from 512 up; more than 3584 bytes do not load (R341, R342). -/
def loadRom (rom : List Byte) (s : State) : LoadResult :=
  if rom.length ≤ 3584 then .loaded (s.setMem (s.mem.writeBlock 512 rom)) else .loadError

end Sys2Proof.Machine
end

