-- ==== Sys2Proof/WellFormed.lean ====
section
/-! DEFINITION. Well-formed instructions: every operand fits the field that 30_encoding.md R71 gives it. The types
of Syntax.lean are those fields, so every term of `Instr` passes (R22: "by construction", log 30). A number from
outside, an assembler's operand, is checked where it becomes an operand, by the `…Operand` functions below. -/

namespace Sys2Proof

/-- A number fits an unsigned field of `w` bits (R71). -/
def fieldFits (w n : Nat) : Bool := decide (n < 2 ^ w)

/-- A number as a register index: X or Y, 4 bits (R71, R22). -/
def regOperand (n : Nat) : Option Reg := if fieldFits 4 n then some (Fin.ofNat 16 n) else none

/-- A number as the sprite height N, 4 bits (R71). -/
def nibbleOperand (n : Nat) : Option Nibble := if fieldFits 4 n then some (BitVec.ofNat 4 n) else none

/-- A number as the immediate NN, 8 bits (R71). -/
def byteOperand (n : Nat) : Option Byte := if fieldFits 8 n then some (BitVec.ofNat 8 n) else none

/-- A number as the address NNN, 12 bits (R71). -/
def addrOperand (n : Nat) : Option Addr12 := if fieldFits 12 n then some (BitVec.ofNat 12 n) else none

/-- Every operand of the instruction fits its field (R71, R72). -/
def Instr.wellFormed : Instr → Bool
  | .clearScreen | .ret => true
  | .jump a | .call a | .loadIndex a | .jumpV0 a => fieldFits 12 a.toNat
  | .skipEqImm x nn | .skipNeImm x nn | .loadImm x nn | .addImm x nn | .random x nn =>
    fieldFits 4 x.val && fieldFits 8 nn.toNat
  | .skipEqReg x y | .skipNeReg x y | .move x y | .or x y | .and x y | .xor x y | .addCarry x y
  | .subNotBorrow x y | .shiftRight x y | .reverseSub x y | .shiftLeft x y =>
    fieldFits 4 x.val && fieldFits 4 y.val
  | .draw x y n => fieldFits 4 x.val && fieldFits 4 y.val && fieldFits 4 n.toNat
  | .skipKey x | .skipNotKey x | .readDelay x | .setDelay x | .setSound x | .addIndex x | .fontAddr x
  | .storeBcd x | .storeRegs x | .loadRegs x | .waitKey x => fieldFits 4 x.val

end Sys2Proof
end

