-- ==== Sys2Proof/Decode.lean ====
section
/-! DEFINITION. The decoder of 30_encoding.md R73, total on every word, and the encoder written from the same
table. Both work on the four nibbles a, b, c, d of the word (00_scope.md R7). -/

namespace Sys2Proof

/-- `DecodeResult ::= MicroOp | DecodeError(w:16)` (R79). -/
inductive DecodeResult where
  | instr (i : Instr)
  | error (w : Word)
deriving DecidableEq, Repr

/-- Nibbles of a word, most significant first: `a = w[15:12]`, `b = w[11:8]`, `c = w[7:4]`, `d = w[3:0]` (R7). -/
def nibbleA (w : Word) : Nibble := BitVec.ofNat 4 (w.toNat / 4096)
def nibbleB (w : Word) : Nibble := BitVec.ofNat 4 (w.toNat / 256)
def nibbleC (w : Word) : Nibble := BitVec.ofNat 4 (w.toNat / 16)
def nibbleD (w : Word) : Nibble := BitVec.ofNat 4 w.toNat

/-- The word whose nibbles are a, b, c, d (R7). -/
def wordOfNibbles (a b c d : Nibble) : Word :=
  BitVec.ofNat 16 (a.toNat * 4096 + b.toNat * 256 + c.toNat * 16 + d.toNat)

/-- A register index from its nibble (R71). -/
def regOf (n : Nibble) : Reg := ⟨n.toNat, n.isLt⟩

/-- The nibble of a register index (R71). -/
def nibbleOf (x : Reg) : Nibble := BitVec.ofNat 4 x.val

/-- `NN = (c << 4) | d` (R71). -/
def immOf (c d : Nibble) : Byte := BitVec.ofNat 8 (c.toNat * 16 + d.toNat)

/-- `NNN = (b << 8) | (c << 4) | d` (R71). -/
def addrOf (b c d : Nibble) : Addr12 := BitVec.ofNat 12 (b.toNat * 256 + c.toNat * 16 + d.toNat)

/-- The 8XY* row of a function nibble (R73 rows 11 to 19). -/
def decodeAlu (x y : Reg) (d : Nibble) : Option Instr :=
  match d with
  | 0x0#4 => some (.move x y)
  | 0x1#4 => some (.or x y)
  | 0x2#4 => some (.and x y)
  | 0x3#4 => some (.xor x y)
  | 0x4#4 => some (.addCarry x y)
  | 0x5#4 => some (.subNotBorrow x y)
  | 0x6#4 => some (.shiftRight x y)
  | 0x7#4 => some (.reverseSub x y)
  | 0xE#4 => some (.shiftLeft x y)
  | _ => none

/-- The EXNN row of a low byte (R73 rows 24 and 25). -/
def decodeKey (x : Reg) (nn : Byte) : Option Instr :=
  match nn with
  | 0x9E#8 => some (.skipKey x)
  | 0xA1#8 => some (.skipNotKey x)
  | _ => none

/-- The FXNN row of a low byte (R73 rows 26 to 34). -/
def decodeMisc (x : Reg) (nn : Byte) : Option Instr :=
  match nn with
  | 0x07#8 => some (.readDelay x)
  | 0x0A#8 => some (.waitKey x)
  | 0x15#8 => some (.setDelay x)
  | 0x18#8 => some (.setSound x)
  | 0x1E#8 => some (.addIndex x)
  | 0x29#8 => some (.fontAddr x)
  | 0x33#8 => some (.storeBcd x)
  | 0x55#8 => some (.storeRegs x)
  | 0x65#8 => some (.loadRegs x)
  | _ => none

/-- The row of the opcode table that four nibbles match, if any (R73, R74: literal nibbles must match). -/
def decodeNibbles (a b c d : Nibble) : Option Instr :=
  match a with
  | 0x0#4 =>
    if b = 0x0#4 ∧ c = 0xE#4 ∧ d = 0x0#4 then some .clearScreen
    else if b = 0x0#4 ∧ c = 0xE#4 ∧ d = 0xE#4 then some .ret
    else none
  | 0x1#4 => some (.jump (addrOf b c d))
  | 0x2#4 => some (.call (addrOf b c d))
  | 0x3#4 => some (.skipEqImm (regOf b) (immOf c d))
  | 0x4#4 => some (.skipNeImm (regOf b) (immOf c d))
  | 0x5#4 => if d = 0x0#4 then some (.skipEqReg (regOf b) (regOf c)) else none
  | 0x6#4 => some (.loadImm (regOf b) (immOf c d))
  | 0x7#4 => some (.addImm (regOf b) (immOf c d))
  | 0x8#4 => decodeAlu (regOf b) (regOf c) d
  | 0x9#4 => if d = 0x0#4 then some (.skipNeReg (regOf b) (regOf c)) else none
  | 0xA#4 => some (.loadIndex (addrOf b c d))
  | 0xB#4 => some (.jumpV0 (addrOf b c d))
  | 0xC#4 => some (.random (regOf b) (immOf c d))
  | 0xD#4 => some (.draw (regOf b) (regOf c) d)
  | 0xE#4 => decodeKey (regOf b) (immOf c d)
  | _ => decodeMisc (regOf b) (immOf c d)   -- a = 0xF, the one value left

/-- `decode(w)`, total, a function of the word alone (R12, R73, R77). A word of no row is `DecodeError(w)` (R75). -/
def decode (w : Word) : DecodeResult :=
  match decodeNibbles (nibbleA w) (nibbleB w) (nibbleC w) (nibbleD w) with
  | some i => .instr i
  | none => .error w

/-- The big-endian word of two bytes, the byte at the lower address first (R56, R70). -/
def wordOfBytes (hi lo : Byte) : Word := BitVec.ofNat 16 (hi.toNat * 256 + lo.toNat)

/-- The byte of a word that lies at the lower address (R56). -/
def highByte (w : Word) : Byte := BitVec.ofNat 8 (w.toNat / 256)

/-- The byte of a word that lies at the higher address (R56). -/
def lowByte (w : Word) : Byte := BitVec.ofNat 8 w.toNat

/-- What a decoder reads from bytes: an instruction and the bytes after it, a word of no row, or fewer than the two
bytes that every instruction has (R70: "A decoder always consumes exactly 2 bytes"). -/
inductive BytesResult where
  | instr (i : Instr) (rest : List Byte)
  | error (w : Word) (rest : List Byte)
  | truncated
deriving DecidableEq, Repr

/-- Decode the first instruction of a list of bytes (R70, R73). -/
def decodeBytes : List Byte → BytesResult
  | hi :: lo :: rest =>
    match decode (wordOfBytes hi lo) with
    | .instr i => .instr i rest
    | .error w => .error w rest
  | _ => .truncated

/-! ## The encoder -/

/-- `NN[7:4]` and `NN[3:0]` (R72). -/
def immHigh (nn : Byte) : Nibble := BitVec.ofNat 4 (nn.toNat / 16)
def immLow (nn : Byte) : Nibble := BitVec.ofNat 4 nn.toNat

/-- `NNN[11:8]`, `NNN[7:4]` and `NNN[3:0]` (R72). -/
def addrHigh (nnn : Addr12) : Nibble := BitVec.ofNat 4 (nnn.toNat / 256)
def addrMid (nnn : Addr12) : Nibble := BitVec.ofNat 4 (nnn.toNat / 16)
def addrLow (nnn : Addr12) : Nibble := BitVec.ofNat 4 nnn.toNat

/-- A word of format `Addr` (R72). -/
def encodeAddr (a : Nibble) (nnn : Addr12) : Word :=
  wordOfNibbles a (addrHigh nnn) (addrMid nnn) (addrLow nnn)

/-- A word of format `RegImm` or `RegFn` (R72). -/
def encodeRegImm (a : Nibble) (x : Reg) (nn : Byte) : Word :=
  wordOfNibbles a (nibbleOf x) (immHigh nn) (immLow nn)

/-- A word of format `RegReg` or `Draw` (R72). -/
def encodeRegReg (a : Nibble) (x y : Reg) (d : Nibble) : Word :=
  wordOfNibbles a (nibbleOf x) (nibbleOf y) d

/-- The word of an instruction (R72, R73). -/
def encode : Instr → Word
  | .clearScreen => 0x00E0#16
  | .ret => 0x00EE#16
  | .jump nnn => encodeAddr 0x1 nnn
  | .call nnn => encodeAddr 0x2 nnn
  | .skipEqImm x nn => encodeRegImm 0x3 x nn
  | .skipNeImm x nn => encodeRegImm 0x4 x nn
  | .skipEqReg x y => encodeRegReg 0x5 x y 0x0
  | .skipNeReg x y => encodeRegReg 0x9 x y 0x0
  | .loadImm x nn => encodeRegImm 0x6 x nn
  | .addImm x nn => encodeRegImm 0x7 x nn
  | .move x y => encodeRegReg 0x8 x y 0x0
  | .or x y => encodeRegReg 0x8 x y 0x1
  | .and x y => encodeRegReg 0x8 x y 0x2
  | .xor x y => encodeRegReg 0x8 x y 0x3
  | .addCarry x y => encodeRegReg 0x8 x y 0x4
  | .subNotBorrow x y => encodeRegReg 0x8 x y 0x5
  | .shiftRight x y => encodeRegReg 0x8 x y 0x6
  | .reverseSub x y => encodeRegReg 0x8 x y 0x7
  | .shiftLeft x y => encodeRegReg 0x8 x y 0xE
  | .loadIndex nnn => encodeAddr 0xA nnn
  | .jumpV0 nnn => encodeAddr 0xB nnn
  | .random x nn => encodeRegImm 0xC x nn
  | .draw x y n => encodeRegReg 0xD x y n
  | .skipKey x => encodeRegImm 0xE x 0x9E
  | .skipNotKey x => encodeRegImm 0xE x 0xA1
  | .readDelay x => encodeRegImm 0xF x 0x07
  | .setDelay x => encodeRegImm 0xF x 0x15
  | .setSound x => encodeRegImm 0xF x 0x18
  | .addIndex x => encodeRegImm 0xF x 0x1E
  | .fontAddr x => encodeRegImm 0xF x 0x29
  | .storeBcd x => encodeRegImm 0xF x 0x33
  | .storeRegs x => encodeRegImm 0xF x 0x55
  | .loadRegs x => encodeRegImm 0xF x 0x65
  | .waitKey x => encodeRegImm 0xF x 0x0A

/-- The bytes of an instruction as memory holds them, high byte first (R56, R70). -/
def encodeBytes (i : Instr) : List Byte := [highByte (encode i), lowByte (encode i)]

/-! ## The opcode table as rows -/

/-- `X = w[11:8]` (R71). -/
def fieldX (w : Word) : Reg := Fin.ofNat 16 (w.toNat / 256)

/-- `Y = w[7:4]` (R71). -/
def fieldY (w : Word) : Reg := Fin.ofNat 16 (w.toNat / 16)

/-- `N = w[3:0]` (R71). -/
def fieldN (w : Word) : Nibble := w.setWidth 4

/-- `NN = w[7:0]` (R71). -/
def fieldNN (w : Word) : Byte := w.setWidth 8

/-- `NNN = w[11:0]` (R71). -/
def fieldNNN (w : Word) : Addr12 := w.setWidth 12

/-- One row of the opcode table for a word: the digit that each nibble must have, or none where any digit will do
(R73's condition column), and the micro-op with its operands from the word's fields (R73's micro-op column). -/
structure OpcodeRow where
  a  : Option Nibble
  b  : Option Nibble
  c  : Option Nibble
  d  : Option Nibble
  op : Instr
deriving DecidableEq, Repr

/-- A nibble has the digit a row asks for, if it asks for one. -/
def digitFits (want : Option Nibble) (n : Nibble) : Bool :=
  match want with
  | some k => decide (n = k)
  | none => true

/-- The word matches the row (R73; that a literal digit is part of the pattern is R74, D19, log 18). -/
def rowMatches (w : Word) (r : OpcodeRow) : Bool :=
  digitFits r.a (nibbleA w) && digitFits r.b (nibbleB w) && digitFits r.c (nibbleC w) && digitFits r.d (nibbleD w)

/-- Rows 1 to 10 of R73. -/
def rows1to10 (w : Word) : List OpcodeRow :=
  [⟨some 0x0, some 0x0, some 0xE, some 0x0, .clearScreen⟩,
   ⟨some 0x0, some 0x0, some 0xE, some 0xE, .ret⟩,
   ⟨some 0x1, none, none, none, .jump (fieldNNN w)⟩,
   ⟨some 0x2, none, none, none, .call (fieldNNN w)⟩,
   ⟨some 0x3, none, none, none, .skipEqImm (fieldX w) (fieldNN w)⟩,
   ⟨some 0x4, none, none, none, .skipNeImm (fieldX w) (fieldNN w)⟩,
   ⟨some 0x5, none, none, some 0x0, .skipEqReg (fieldX w) (fieldY w)⟩,
   ⟨some 0x9, none, none, some 0x0, .skipNeReg (fieldX w) (fieldY w)⟩,
   ⟨some 0x6, none, none, none, .loadImm (fieldX w) (fieldNN w)⟩,
   ⟨some 0x7, none, none, none, .addImm (fieldX w) (fieldNN w)⟩]

/-- Rows 11 to 23 of R73. -/
def rows11to23 (w : Word) : List OpcodeRow :=
  [⟨some 0x8, none, none, some 0x0, .move (fieldX w) (fieldY w)⟩,
   ⟨some 0x8, none, none, some 0x1, .or (fieldX w) (fieldY w)⟩,
   ⟨some 0x8, none, none, some 0x2, .and (fieldX w) (fieldY w)⟩,
   ⟨some 0x8, none, none, some 0x3, .xor (fieldX w) (fieldY w)⟩,
   ⟨some 0x8, none, none, some 0x4, .addCarry (fieldX w) (fieldY w)⟩,
   ⟨some 0x8, none, none, some 0x5, .subNotBorrow (fieldX w) (fieldY w)⟩,
   ⟨some 0x8, none, none, some 0x6, .shiftRight (fieldX w) (fieldY w)⟩,
   ⟨some 0x8, none, none, some 0x7, .reverseSub (fieldX w) (fieldY w)⟩,
   ⟨some 0x8, none, none, some 0xE, .shiftLeft (fieldX w) (fieldY w)⟩,
   ⟨some 0xA, none, none, none, .loadIndex (fieldNNN w)⟩,
   ⟨some 0xB, none, none, none, .jumpV0 (fieldNNN w)⟩,
   ⟨some 0xC, none, none, none, .random (fieldX w) (fieldNN w)⟩,
   ⟨some 0xD, none, none, none, .draw (fieldX w) (fieldY w) (fieldN w)⟩]

/-- Rows 24 to 34 of R73. -/
def rows24to34 (w : Word) : List OpcodeRow :=
  [⟨some 0xE, none, some 0x9, some 0xE, .skipKey (fieldX w)⟩,
   ⟨some 0xE, none, some 0xA, some 0x1, .skipNotKey (fieldX w)⟩,
   ⟨some 0xF, none, some 0x0, some 0x7, .readDelay (fieldX w)⟩,
   ⟨some 0xF, none, some 0x1, some 0x5, .setDelay (fieldX w)⟩,
   ⟨some 0xF, none, some 0x1, some 0x8, .setSound (fieldX w)⟩,
   ⟨some 0xF, none, some 0x1, some 0xE, .addIndex (fieldX w)⟩,
   ⟨some 0xF, none, some 0x2, some 0x9, .fontAddr (fieldX w)⟩,
   ⟨some 0xF, none, some 0x3, some 0x3, .storeBcd (fieldX w)⟩,
   ⟨some 0xF, none, some 0x5, some 0x5, .storeRegs (fieldX w)⟩,
   ⟨some 0xF, none, some 0x6, some 0x5, .loadRegs (fieldX w)⟩,
   ⟨some 0xF, none, some 0x0, some 0xA, .waitKey (fieldX w)⟩]

/-- The 34 rows of R73, in its order, for a word. -/
def opcodeRows (w : Word) : List OpcodeRow := rows1to10 w ++ rows11to23 w ++ rows24to34 w

/-! ## What the host asks for -/

/-- The instruction the decoder reads from an instruction whose bits are `w`, numbered as the opcode table numbers
them: the two bytes are laid out as memory holds them and given to the decoder. -/
def decodeTableWord (nbits w : Nat) : Option Instr :=
  let word : Word := BitVec.ofNat 16 (w % 2 ^ nbits)
  match decodeBytes [highByte word, lowByte word] with
  | .instr i _ => some i
  | .error _ _ => none
  | .truncated => none

end Sys2Proof
end

