-- ==== Sys2Proof/Machine/Operands.lean ====
section
/-! DEFINITION. The operand forms: register pairs, the shift source, absolute and index-based addresses
(44_index_memory.md R206), the register block, the key number. Results are exact, then truncated (R8, R172). -/

namespace Sys2Proof.Machine

/-- The register that 8XY6 and 8XYE shift: VX or VY by `SHIFT_SOURCE` (R168, R170; D12, log 9). -/
def shiftSource (s : State) (x y : Reg) : Byte :=
  match s.params.shiftSource with
  | .vx => s.getV x
  | .vy => s.getV y

/-- `NNN + V[0]`, exact: at most 4350 (R123). -/
def jumpV0Target (s : State) (nnn : Addr12) : Word := zext16 nnn + (s.getV 0).setWidth 16

/-- The effective address `I + k`, exact, never truncated (R67). -/
abbrev indexAddr (s : State) (k : Nat) : Nat := s.index.toNat + k

/-- `trunc_8(x + y)` (R161, R166). -/
def sum8 (x y : Byte) : Byte := trunc8 (x.toNat + y.toNat)

/-- `trunc_8(x - y + 256)` (R167, R169). -/
def diff8 (x y : Byte) : Byte := trunc8 (x.toNat + 256 - y.toNat)

/-- `src >> 1` (R168). -/
def shr8 (b : Byte) : Byte := trunc8 (b.toNat / 2)

/-- `trunc_8(src << 1)` (R170). -/
def shl8 (b : Byte) : Byte := trunc8 (b.toNat * 2)

/-- The decimal digits of a byte: hundreds, tens, units (R203; D18, log 17). -/
def bcdDigits (b : Byte) : List Byte :=
  [trunc8 (b.toNat / 100), trunc8 (b.toNat / 10 % 10), trunc8 (b.toNat % 10)]

/-- The registers V0..VX inclusive, ascending (R204). -/
def regBlock (s : State) (x : Reg) : List Byte := s.v.toList.take (x.val + 1)

/-- The registers after the first `n` of them are loaded, ascending, from memory at `a` (R205). -/
def loadBlock (m : Memory) (a : Nat) (v : Vector Byte 16) : Nat → Vector Byte 16
  | 0 => v
  | n + 1 => (loadBlock m a v n).setIfInBounds n (m.read (a + n))

/-- The keys in ascending order (R29). -/
def allKeys : List (Fin 16) := [0, 1, 2, 3, 4, 5, 6, 7, 8, 9, 10, 11, 12, 13, 14, 15]

/-- `K[k]` (R29). -/
def Keypad.pressed (K : Keypad) (k : Fin 16) : Bool := K[k.val]

/-- `min { k | K[k] }`, or none where no key is pressed (R263). -/
def Keypad.lowest (K : Keypad) : Option (Fin 16) := allKeys.find? (fun k => K.pressed k)

/-- The key numbered by a register, or none where it is above 15 (R144, R145). -/
def keyNumber (b : Byte) : Option (Fin 16) := if b.toNat ≤ 15 then some (Fin.ofNat 16 b.toNat) else none

end Sys2Proof.Machine
end

