-- ==== Sys2Proof/Machine/Flags.lean ====
section
/-! DEFINITION. Every flag computation. VF is the only flag and holds 0 or 1 (10_state.md R21, 43_alu.md R172). -/

namespace Sys2Proof.Machine

/-- `p ? 1 : 0`. -/
def flagByte (p : Bool) : Byte := if p then 1#8 else 0#8

/-- 8XY4: 1 on unsigned overflow of the exact sum (R166). -/
def carryFlag (x y : Byte) : Byte := flagByte (decide (255 < x.toNat + y.toNat))

/-- 8XY5 and, with its operands exchanged, 8XY7: 1 where the subtrahend `y` is at most the minuend `x`, equal
operands included (R167, R169; D14, log 14). -/
def notBorrowFlag (x y : Byte) : Byte := flagByte (decide (y.toNat ≤ x.toNat))

/-- 8XY6: the old least significant bit (R168). -/
def lsbFlag (b : Byte) : Byte := trunc8 (b.toNat % 2)

/-- 8XYE: the old most significant bit (R170). -/
def msbFlag (b : Byte) : Byte := trunc8 (b.toNat / 128)

/-- DXYN: the collision boolean of the draw (R238). -/
def collisionFlag (hit : Bool) : Byte := flagByte hit

end Sys2Proof.Machine
end

