-- ==== Sys2Proof/Machine/Alu.lean ====
section
/-! DEFINITION. Register loads and arithmetic: 6XNN, 7XNN, 8XY0 to 8XY7, 8XYE, CXNN (43_alu.md). Operands are read
from the state before the instruction, the flag is written last (R110, R347). -/

namespace Sys2Proof.Machine

/-- 6XNN, R160. -/
def execLoadImm (x : Reg) (nn : Byte) (s : State) : Host.Outcome State Fault Refusal :=
  complete .increment (s.setV x nn)

/-- 7XNN, R161: no flag (C9). -/
def execAddImm (x : Reg) (nn : Byte) (s : State) : Host.Outcome State Fault Refusal :=
  complete .increment (s.setV x (sum8 (s.getV x) nn))

/-- 8XY0, R162. -/
def execMove (x y : Reg) (s : State) : Host.Outcome State Fault Refusal :=
  complete .increment (s.setV x (s.getV y))

/-- 8XY1, R163: no flag (D15, log 15). -/
def execOr (x y : Reg) (s : State) : Host.Outcome State Fault Refusal :=
  complete .increment (s.setV x (s.getV x ||| s.getV y))

/-- 8XY2, R164: no flag (D15, log 15). -/
def execAnd (x y : Reg) (s : State) : Host.Outcome State Fault Refusal :=
  complete .increment (s.setV x (s.getV x &&& s.getV y))

/-- 8XY3, R165: no flag (D15, log 15). -/
def execXor (x y : Reg) (s : State) : Host.Outcome State Fault Refusal :=
  complete .increment (s.setV x (s.getV x ^^^ s.getV y))

/-- 8XY4, R166. -/
def execAddCarry (x y : Reg) (s : State) : Host.Outcome State Fault Refusal :=
  complete .increment
    (s.setVFlag x (sum8 (s.getV x) (s.getV y)) (carryFlag (s.getV x) (s.getV y)))

/-- 8XY5, R167. -/
def execSubNotBorrow (x y : Reg) (s : State) : Host.Outcome State Fault Refusal :=
  complete .increment
    (s.setVFlag x (diff8 (s.getV x) (s.getV y)) (notBorrowFlag (s.getV x) (s.getV y)))

/-- 8XY6, R168. -/
def execShiftRight (x y : Reg) (s : State) : Host.Outcome State Fault Refusal :=
  complete .increment
    (s.setVFlag x (shr8 (shiftSource s x y)) (lsbFlag (shiftSource s x y)))

/-- 8XY7, R169. -/
def execReverseSub (x y : Reg) (s : State) : Host.Outcome State Fault Refusal :=
  complete .increment
    (s.setVFlag x (diff8 (s.getV y) (s.getV x)) (notBorrowFlag (s.getV y) (s.getV x)))

/-- 8XYE, R170. -/
def execShiftLeft (x y : Reg) (s : State) : Host.Outcome State Fault Refusal :=
  complete .increment
    (s.setVFlag x (shl8 (shiftSource s x y)) (msbFlag (shiftSource s x y)))

/-- The effect of CXNN for a given draw `rand8` (R171). -/
def execRandomWith (rand8 : Byte) (x : Reg) (nn : Byte) (s : State) : Host.Outcome State Fault Refusal :=
  complete .increment ((s.setV x (rand8 &&& nn)).countDraw)

/-- CXNN, R171: the draw is the free value of log 4. -/
def execRandom (x : Reg) (nn : Byte) (s : State) : Host.Outcome State Fault Refusal :=
  execRandomWith (Config.randomByte s.draws) x nn s

end Sys2Proof.Machine
end

