-- ==== Sys2Proof/Machine/Control.lean ====
section
/-! DEFINITION. Control transfer: 00EE, 1NNN, 2NNN, BNNN (41_control_transfer.md). A target is checked at the next
fetch, not here. -/

namespace Sys2Proof.Machine

/-- 00EE, R120. -/
def execRet (s : State) : Host.Outcome State Fault Refusal :=
  match pop s.stack with
  | some (t, rest) => complete (.jump t) (s.setStack rest)
  | none => raise .stackUnderflow s

/-- 1NNN, R121. -/
def execJump (nnn : Addr12) (s : State) : Host.Outcome State Fault Refusal :=
  complete (.jump (zext16 nnn)) s

/-- 2NNN, R122: pushes `pc + 2`. -/
def execCall (nnn : Addr12) (s : State) : Host.Outcome State Fault Refusal :=
  match push s.stack (s.pc + 2#16) with
  | some l => complete (.jump (zext16 nnn)) (s.setStack l)
  | none => raise .stackOverflow s

/-- BNNN, R123: always V0. -/
def execJumpV0 (nnn : Addr12) (s : State) : Host.Outcome State Fault Refusal :=
  complete (.jump (jumpV0Target s nnn)) s

end Sys2Proof.Machine
end

