-- ==== Sys2Proof/Machine/Compositor.lean ====
section
/-! DEFINITION. The framebuffer sprite compositor (45_display.md): `fb_clear`, `fb_draw` and
`fb_read`. -/

namespace Sys2Proof.Machine

/-- `FB[y][x]` (R28). -/
def Framebuffer.pixel (f : Framebuffer) (x : Fin 64) (y : Fin 32) : Bool := (f.rows[y.val])[x.val]

/-- `FB[y][x] <- p`. -/
def Framebuffer.setPixel (f : Framebuffer) (x : Fin 64) (y : Fin 32) (p : Bool) : Framebuffer :=
  ⟨f.rows.set y.val ((f.rows[y.val]).set x.val p)⟩

/-- `fb_clear()`: every pixel 0 (R231). -/
def fbClear : Framebuffer := ⟨Vector.replicate 32 (Vector.replicate 64 false)⟩

/-- The column of sprite column `c`: `(x + c) mod 64` (R232, R234). -/
def targetX (x : Byte) (c : Nat) : Fin 64 := Fin.ofNat 64 (x.toNat + c)

/-- The row of sprite row `r`: `(y + r) mod 32` (R232, R234). -/
def targetY (y : Byte) (r : Nat) : Fin 32 := Fin.ofNat 32 (y.toNat + r)

/-- Pixel `c` of a sprite row, bit 7 leftmost: `(s[r] >> (7 - c)) & 1` (R232). -/
def spriteBit (row : Byte) (c : Nat) : Bool := row.toNat / 2 ^ (7 - c) % 2 == 1

/-- What a draw has reached: the framebuffer so far, and whether a lit pixel has been erased. -/
structure DrawState where
  fb        : Framebuffer
  collision : Bool
deriving DecidableEq, Repr

/-- The body of R232's inner loop, for one pixel of one row. -/
def drawPixel (px : Fin 64) (py : Fin 32) (bit : Bool) (d : DrawState) : DrawState :=
  let old := d.fb.pixel px py
  ⟨d.fb.setPixel px py (old ^^ bit), d.collision || (bit && old)⟩

/-- R232's inner loop from column `c`, `n` columns, left to right. -/
def drawColumns (x : Byte) (py : Fin 32) (row : Byte) (c : Nat) (d : DrawState) : Nat → DrawState
  | 0 => d
  | n + 1 => drawColumns x py row (c + 1) (drawPixel (targetX x c) py (spriteBit row c) d) n

/-- R232's outer loop: the rows of the sprite from row `r`, ascending, 8 columns each. -/
def drawRows (x y : Byte) (r : Nat) (d : DrawState) : List Byte → DrawState
  | [] => d
  | row :: rest => drawRows x y (r + 1) (drawColumns x (targetY y r) row 0 d 8) rest

/-- `fb_draw(x, y, sprite) -> collision`: the new framebuffer and the collision boolean (R232, R233). -/
def fbDraw (f : Framebuffer) (x y : Byte) (sprite : List Byte) : DrawState :=
  drawRows x y 0 ⟨f, false⟩ sprite

/-- `fb_read()`: the 2048 pixels, row-major from the top-left (R236, R28). -/
def fbRead (f : Framebuffer) : List Bool := (f.rows.toList.map Vector.toList).flatten

end Sys2Proof.Machine
end

