-- ==== Sys2Proof/Machine/Display.lean ====
section
/-! DEFINITION. The two instructions that drive the compositor: 00E0 and DXYN (45_display.md R237, R238). -/

namespace Sys2Proof.Machine

/-- 00E0, R237: VF is unchanged. -/
def execClearScreen (s : State) : Host.Outcome State Fault Refusal :=
  complete .increment (s.setFb fbClear)

/-- The sprite of DXYN: the `n` bytes from I (R238). -/
def spriteBytes (n : Nibble) (s : State) : List Byte := s.mem.readBlock (indexAddr s 0) n.toNat

/-- DXYN, R238: the range check and the reads come before any pixel changes (D29, log 12); the coordinates are read
before VF is written; VF is written on every draw. -/
def execDraw (x y : Reg) (n : Nibble) (s : State) : Host.Outcome State Fault Refusal :=
  match rangeFault (indexAddr s 0) n.toNat with
  | some a => raise (.memoryOutOfRange a) s
  | none =>
    let d := fbDraw s.fb (s.getV x) (s.getV y) (spriteBytes n s)
    complete .increment ((s.setFb d.fb).setV vf (collisionFlag d.collision))

end Sys2Proof.Machine
end

