-- ==== Sys2Proof/Machine/IndexMemory.lean ====
section
/-! DEFINITION. Index register and memory blocks: ANNN, FX1E, FX29, FX33, FX55, FX65 (44_index_memory.md). A block
instruction checks its whole range before any access (R55; D11, D20, log 12). -/

namespace Sys2Proof.Machine

/-- ANNN, R200. -/
def execLoadIndex (nnn : Addr12) (s : State) : Host.Outcome State Fault Refusal :=
  complete .increment (s.setIndex (zext16 nnn))

/-- FX1E, R201: an exact sum above 0xFFFF raises IndexOverflow (D8, log 10); VF is not written (D16, log 15). -/
def execAddIndex (x : Reg) (s : State) : Host.Outcome State Fault Refusal :=
  if 0xFFFF < indexAddr s (s.getV x).toNat then raise .indexOverflow s
  else complete .increment (s.setIndex (BitVec.ofNat 16 (indexAddr s (s.getV x).toNat)))

/-- FX29, R202: the whole of VX, not its low nibble (U9). -/
def execFontAddr (x : Reg) (s : State) : Host.Outcome State Fault Refusal :=
  complete .increment (s.setIndex (BitVec.ofNat 16 (5 * (s.getV x).toNat)))

/-- FX33, R203. -/
def execStoreBcd (x : Reg) (s : State) : Host.Outcome State Fault Refusal :=
  match rangeFault (indexAddr s 0) 3 with
  | some a => raise (.memoryOutOfRange a) s
  | none => complete .increment (s.setMem (s.mem.writeBlock (indexAddr s 0) (bcdDigits (s.getV x))))

/-- FX55, R204: stores V0..VX, then `I <- I + X + 1`. -/
def execStoreRegs (x : Reg) (s : State) : Host.Outcome State Fault Refusal :=
  match rangeFault (indexAddr s 0) (x.val + 1) with
  | some a => raise (.memoryOutOfRange a) s
  | none =>
    complete .increment
      ((s.setMem (s.mem.writeBlock (indexAddr s 0) (regBlock s x))).setIndex
        (BitVec.ofNat 16 (indexAddr s (x.val + 1))))

/-- FX65, R205: loads V0..VX, then `I <- I + X + 1`. -/
def execLoadRegs (x : Reg) (s : State) : Host.Outcome State Fault Refusal :=
  match rangeFault (indexAddr s 0) (x.val + 1) with
  | some a => raise (.memoryOutOfRange a) s
  | none =>
    complete .increment
      ((s.setRegs (loadBlock s.mem (indexAddr s 0) s.v (x.val + 1))).setIndex
        (BitVec.ofNat 16 (indexAddr s (x.val + 1))))

end Sys2Proof.Machine
end

