-- ==== Sys2Proof/Machine/Skips.lean ====
section
/-! DEFINITION. Conditional skips: 3XNN, 4XNN, 5XY0, 9XY0, EX9E, EXA1 (42_skips.md). -/

namespace Sys2Proof.Machine

/-- 3XNN, R140. -/
def execSkipEqImm (x : Reg) (nn : Byte) (s : State) : Host.Outcome State Fault Refusal :=
  complete (.skip (decide (s.getV x = nn))) s

/-- 4XNN, R141. -/
def execSkipNeImm (x : Reg) (nn : Byte) (s : State) : Host.Outcome State Fault Refusal :=
  complete (.skip (decide (s.getV x ≠ nn))) s

/-- 5XY0, R142. -/
def execSkipEqReg (x y : Reg) (s : State) : Host.Outcome State Fault Refusal :=
  complete (.skip (decide (s.getV x = s.getV y))) s

/-- 9XY0, R143. -/
def execSkipNeReg (x y : Reg) (s : State) : Host.Outcome State Fault Refusal :=
  complete (.skip (decide (s.getV x ≠ s.getV y))) s

/-- EX9E, R144; above 15, KeyIndexOutOfRange (D17, log 16). -/
def execSkipKey (x : Reg) (s : State) : Host.Outcome State Fault Refusal :=
  match keyNumber (s.getV x) with
  | some k => complete (.skip (s.snapshot.pressed k)) s
  | none => raise (.keyIndexOutOfRange (s.getV x)) s

/-- EXA1, R145; above 15, KeyIndexOutOfRange (D17, log 16). -/
def execSkipNotKey (x : Reg) (s : State) : Host.Outcome State Fault Refusal :=
  match keyNumber (s.getV x) with
  | some k => complete (.skip (!s.snapshot.pressed k)) s
  | none => raise (.keyIndexOutOfRange (s.getV x)) s

end Sys2Proof.Machine
end

