-- ==== Sys2Proof/Machine/Timers.lean ====
section
/-! DEFINITION. Timers and key wait: FX07, FX15, FX18, FX0A (46_timers_keypad.md). -/

namespace Sys2Proof.Machine

/-- FX07, R260: the delay before this step's decrement. -/
def execReadDelay (x : Reg) (s : State) : Host.Outcome State Fault Refusal :=
  complete .increment (s.setV x s.delay)

/-- FX15, R261. -/
def execSetDelay (x : Reg) (s : State) : Host.Outcome State Fault Refusal :=
  complete .increment (s.setDelay (s.getV x))

/-- FX18, R262. -/
def execSetSound (x : Reg) (s : State) : Host.Outcome State Fault Refusal :=
  complete .increment (s.setSound (s.getV x))

/-- The effect and the writes of FX0A: the lowest pressed key of the snapshot into VX, or `Halt` with no write at all
(R263). -/
def waitKey (x : Reg) (s : State) : Effect × State :=
  match s.snapshot.lowest with
  | some k => (.increment, s.setV x (BitVec.ofNat 8 k.val))
  | none => (.halt, s)

/-- FX0A, R263. -/
def execWaitKey (x : Reg) (s : State) : Host.Outcome State Fault Refusal :=
  complete (waitKey x s).1 (waitKey x s).2

end Sys2Proof.Machine
end

