-- ==== Sys2Proof/Machine/Keypad.lean ====
section
/-! DEFINITION. The keypad device and the input listener (60_exceptions.md R317, R320, R325; 20_memory.md R62). -/

namespace Sys2Proof.Machine

/-- `Toggle(key)` sets the slot and never clears it (R30, R317). -/
def toggle (K : Keypad) (k : Fin 16) : Keypad := K.set k.val true

/-- `ClearAll` (R30, R317). -/
def clearAll : Keypad := Vector.replicate 16 false

/-- The key of a character: '0'..'9' are keys 0..9, 'a'..'f' keys 10..15, 'A'..'F' only by `UPPERCASE_HEX_KEYS`;
every other character is ignored (R325; D31, log 20). -/
def keyOfChar (u : Config.UppercaseHexKeys) (c : Char) : Option (Fin 16) :=
  if 48 ≤ c.toNat ∧ c.toNat ≤ 57 then some (Fin.ofNat 16 (c.toNat - 48))
  else if 97 ≤ c.toNat ∧ c.toNat ≤ 102 then some (Fin.ofNat 16 (c.toNat - 87))
  else if u = .accepted ∧ 65 ≤ c.toNat ∧ c.toNat ≤ 70 then some (Fin.ofNat 16 (c.toNat - 55))
  else none

/-- The listener's answer to one key character: one `Toggle`, or nothing (R320, R325). -/
def listen (u : Config.UppercaseHexKeys) (K : Keypad) (c : Char) : Keypad :=
  match keyOfChar u c with
  | some k => toggle K k
  | none => K

/-- The listener's answer to key characters, in their order (R62). -/
def listenAll (u : Config.UppercaseHexKeys) (K : Keypad) : List Char → Keypad
  | [] => K
  | c :: cs => listenAll u (listen u K c) cs

end Sys2Proof.Machine
end

