-- ==== Sys2Proof/Machine/Cycle.lean ====
section
/-! DEFINITION. Fetch, `execute_one` (40_cycle.md R111), and one iteration of the emulation loop around it
(60_exceptions.md R318, R320; log 2). -/

namespace Sys2Proof.Machine

/-- The two bytes at pc as a big-endian word (R56, R102). -/
def fetchedWord (s : State) : Word := wordOfBytes (s.mem.read s.pc.toNat) (s.mem.read (s.pc.toNat + 1))

/-- The fault of a fetch, if it has one: the range check, then the alignment check (R57, R58, R311). -/
def fetchFault (s : State) : Option FaultKind :=
  if 4094 < s.pc.toNat then some .fetchOutOfRange
  else if s.pc.toNat % 2 = 1 ∧ s.params.oddPcFetch = .fault then some .misalignedFetch
  else none

/-- `execute_one`: one fetch, decode and execution (R102, R103, R104, R111). -/
def executeOne (s : State) : Host.Outcome State Fault Refusal :=
  match fetchFault s with
  | some k => raise k s
  | none =>
    match decode (fetchedWord s) with
    | .error w => raise (.decodeError w) s
    | .instr i => exec i s

/-! ## The input listener -/

/-- One step of the listener: one `Toggle` (R320). It may come at any time and writes the keypad array alone. -/
def listenerStep (k : Fin 16) (s : State) : State := { s with keypad := toggle s.keypad k }

/-- The listener's answer to key characters, in their order (R320, R325). -/
def hear (cs : List Char) (s : State) : State :=
  { s with keypad := listenAll s.params.uppercaseHexKeys s.keypad cs }

/-- The key characters of the current iteration: those that `inputs` prescribes, and past its end the free ones of
`Config.keyInput` (R18; log 3). -/
def currentInput (s : State) : Config.KeyInput :=
  match s.inputs with
  | [] => Config.keyInput s.iterations
  | k :: _ => k

/-- One iteration has used its key characters (log 3). -/
def nextInput (s : State) : State := { s with inputs := s.inputs.tail, iterations := s.iterations + 1 }

/-! ## The emulation loop -/

/-- K is a copy of the keypad array (R65, R318 steps 1 and 2). -/
def takeSnapshot (s : State) : State := { s with snapshot := s.keypad }

/-- The loop's answer to the returned status: on Continue the framebuffer is rendered and `ClearAll` clears every slot
(R318 step 4); on BlockForIO and on Fault nothing is rendered or cleared (R318 steps 5 and 6, D36). -/
def answer (s : State) : State :=
  match s.returned with
  | some .continued => { s with keypad := clearAll, rendered := some (fbRead s.fb) }
  | some .blockForIO => s
  | some (.fault _) => s
  | none => s

/-- `execute_one` with what comes before it and after it. -/
def around (before after : State → State) (s : State) : Host.Outcome State Fault Refusal :=
  match executeOne (before s) with
  | .next t => .next (after t)
  | .fault r => .fault r
  | .refused r => .refused r

/-- One step of the emulation loop alone, with no Toggle inside it: `execute_one` with its host actions (R318, R320).
There is none in status `Faulted(f)` (R101). -/
def loopStep (s : State) : Host.Outcome State Fault Refusal :=
  match s.status with
  | .running => around takeSnapshot answer s
  | .faulted f => .fault (.stopped f)

/-! ## One iteration with both agents -/

/-- The start of an iteration: the listener's Toggles ordered before the snapshot, then the snapshot (R62). -/
def beginIteration (s : State) : State := takeSnapshot (hear (currentInput s).before s)

/-- The end of an iteration: the Toggles ordered after the snapshot, then the loop's answer, so that a `ClearAll`
clears those Toggles too (R62, R349). -/
def endIteration (s : State) : State := nextInput (answer (hear (currentInput s).during s))

/-- One iteration of the emulation loop, with the listener's Toggles at their places in it (R318, R320). -/
def loopIteration (s : State) : Host.Outcome State Fault Refusal := around beginIteration endIteration s

/-- Store an instruction's word at pc, high byte first (R56); an address that does not exist holds nothing. -/
def storeWord (s : State) (w : Word) : State :=
  if s.pc.toNat ≤ 4094 then s.setMem (s.mem.writeBlock s.pc.toNat [highByte w, lowByte w]) else s

end Sys2Proof.Machine
end

