-- ==== Sys2Proof/Machine/Step.lean ====
section
/-! DEFINITION. One step of the machine: one iteration of the emulation loop while Running (R318, R320), and no step
once Faulted (R101). -/

namespace Sys2Proof.Machine

/-- One step. In status `Faulted(f)` "the machine has no step" (R101). -/
def step (s : State) : Host.Outcome State Fault Refusal :=
  match s.status with
  | .running => loopIteration s
  | .faulted f => .fault (.stopped f)

/-- `s` with the instruction whose bits are `w` stored where the next step fetches: at pc, high byte first (R56). -/
def State.withFetchWord (s : State) (nbits w : Nat) : State :=
  storeWord s (BitVec.ofNat 16 (w % 2 ^ nbits))

end Sys2Proof.Machine
end

