-- ==== Sys2Proof/Safety.lean ====
section
/-! DEFINITION. The vocabulary of the claims: what a step or an instruction leaves unchanged, what a taken fault and a
completed instruction look like, and the invariant of the machine. -/

namespace Sys2Proof.Machine

/-! ## What is unchanged -/

/-- Every byte of memory reads as before. -/
def SameMemory (s t : State) : Prop := ∀ a, t.mem.read a = s.mem.read a

/-- Every byte outside the `n` bytes from `a` reads as before. -/
def SameMemoryOutside (a n : Nat) (s t : State) : Prop :=
  ∀ b, (b < a ∨ a + n ≤ b) → t.mem.read b = s.mem.read b

/-- Every register but those listed is as before. -/
def SameRegsExcept (l : List Reg) (s t : State) : Prop := ∀ r, r ∉ l → t.getV r = s.getV r

/-- Every pixel is as before. -/
def SamePixels (s t : State) : Prop := ∀ x y, t.fb.pixel x y = s.fb.pixel x y

/-- The keypad array, the snapshot, the rendered frame, the listener's schedule with its counter and the parameters are as before:
"The host never writes registers, I, the stack, the timers, pc …" (R324), and no instruction writes these. -/
def SameHost (s t : State) : Prop :=
  t.keypad = s.keypad ∧ t.snapshot = s.snapshot ∧ t.rendered = s.rendered ∧ t.inputs = s.inputs ∧
    t.iterations = s.iterations ∧ t.params = s.params

/-- Every piece of the block's state but `status` is as before: V, I, pc, the stack, the timers, FB and M (R108, R313). -/
def SameBlock (s t : State) : Prop :=
  t.v = s.v ∧ t.index = s.index ∧ t.pc = s.pc ∧ t.stack = s.stack ∧ t.delay = s.delay ∧ t.sound = s.sound ∧
    t.fb = s.fb ∧ t.mem = s.mem

/-! ## How a step ends -/

/-- Both timers are one less, floored at 0 (R106). -/
def Ticked (s t : State) : Prop := t.delay.toNat = s.delay.toNat - 1 ∧ t.sound.toNat = s.sound.toNat - 1

/-- The instruction completed: it returned Continue, the machine still has the status it had, and the host's side is
untouched (R100, R106). -/
def Continued (s t : State) : Prop := t.returned = some .continued ∧ t.status = s.status ∧ SameHost s t

/-- pc moved past the instruction (R105, `Increment`). -/
def Advanced (s t : State) : Prop := t.pc.toNat = s.pc.toNat + 2

/-- The step took the fault `k`: status and returned status name it with this instruction's pc, and nothing else
changed (R108, R300, R313). -/
def TookFault (k : FaultKind) (s t : State) : Prop :=
  t.status = .faulted ⟨k, s.pc⟩ ∧ t.returned = some (.fault ⟨k, s.pc⟩) ∧ SameBlock s t ∧ SameHost s t ∧
    t.draws = s.draws

/-- `exec i s` answers a next state, and that state has the property. -/
def Runs (i : Instr) (s : State) (P : State → Prop) : Prop := ∃ t, exec i s = .next t ∧ P t

/-- The frame of an instruction that changes no register but those listed: I, the stack, memory, the framebuffer and
the draw counter stay, the timers count down, pc advances by 2, and the instruction completes. -/
def RegistersOnly (l : List Reg) (s t : State) : Prop :=
  SameRegsExcept l s t ∧ t.index = s.index ∧ t.stack = s.stack ∧ SameMemory s t ∧ SamePixels s t ∧
    t.draws = s.draws ∧ Ticked s t ∧ Advanced s t ∧ Continued s t

/-- The frame of an instruction that changes pc and, it may be, the stack: every register, I, memory, the framebuffer
and the draw counter stay, the timers count down, and the instruction completes. -/
def ControlOnly (s t : State) : Prop :=
  SameRegsExcept [] s t ∧ t.index = s.index ∧ SameMemory s t ∧ SamePixels s t ∧ t.draws = s.draws ∧
    Ticked s t ∧ Continued s t

/-- The frame of an instruction that may change I and the listed registers; memory is left to the statement. -/
def IndexAndRegisters (l : List Reg) (s t : State) : Prop :=
  SameRegsExcept l s t ∧ t.stack = s.stack ∧ SamePixels s t ∧ t.draws = s.draws ∧
    Ticked s t ∧ Advanced s t ∧ Continued s t

/-! ## Which instruction a step runs -/

/-- The big-endian word at pc (R56). -/
def wordAtPc (s : State) : Word :=
  BitVec.ofNat 16 ((s.mem.read s.pc.toNat).toNat * 256 + (s.mem.read (s.pc.toNat + 1)).toNat)

/-- pc can be fetched from: both bytes exist, and pc is even or `ODD_PC_FETCH = Read` (R57, R58). -/
def Fetchable (s : State) : Prop :=
  s.pc.toNat ≤ 4094 ∧ (s.pc.toNat % 2 = 0 ∨ s.params.oddPcFetch = .read)

/-- The machine is Running and its next step fetches and decodes `i`. -/
def Fetches (s : State) (i : Instr) : Prop :=
  s.status = .running ∧ Fetchable s ∧ decode (wordAtPc s) = .instr i

/-- The illegal words of R75's table, by the numbers of their nibbles: `w / 4096` is a, `w % 16` is d, `w % 256` is
the low byte. -/
def IllegalWord (w : Nat) : Prop :=
  (w / 4096 = 0x0 ∧ w ≠ 0x00E0 ∧ w ≠ 0x00EE) ∨
  (w / 4096 = 0x5 ∧ w % 16 ≠ 0) ∨
  (w / 4096 = 0x8 ∧ w % 16 ∈ [0x8, 0x9, 0xA, 0xB, 0xC, 0xD, 0xF]) ∨
  (w / 4096 = 0x9 ∧ w % 16 ≠ 0) ∨
  (w / 4096 = 0xE ∧ w % 256 ∉ [0x9E, 0xA1]) ∨
  (w / 4096 = 0xF ∧ w % 256 ∉ [0x07, 0x0A, 0x15, 0x18, 0x1E, 0x29, 0x33, 0x55, 0x65])

/-! ## Which instructions write what -/

/-- The instruction may write the register: as its destination, as one of V0..VX (FX65), or as the flag (R20, R21). -/
def MayWriteReg (r : Reg) : Instr → Prop
  | .loadImm x _ | .addImm x _ | .move x _ | .or x _ | .and x _ | .xor x _ | .random x _ | .readDelay x
  | .waitKey x => r = x
  | .addCarry x _ | .subNotBorrow x _ | .shiftRight x _ | .reverseSub x _ | .shiftLeft x _ => r = x ∨ r = vf
  | .draw _ _ _ => r = vf
  | .loadRegs x => r ≤ x
  | .clearScreen | .ret | .jump _ | .call _ | .skipEqImm _ _ | .skipNeImm _ _ | .skipEqReg _ _ | .skipNeReg _ _
  | .loadIndex _ | .jumpV0 _ | .skipKey _ | .skipNotKey _ | .setDelay _ | .setSound _ | .addIndex _ | .fontAddr _
  | .storeBcd _ | .storeRegs _ => False

/-- The instruction may write I: ANNN, FX1E, FX29, FX55, FX65 (R23). -/
def MayWriteIndex (i : Instr) : Prop :=
  (∃ nnn, i = .loadIndex nnn) ∨ ∃ x, i = .addIndex x ∨ i = .fontAddr x ∨ i = .storeRegs x ∨ i = .loadRegs x

/-- The instruction reads the keypad snapshot: EX9E, EXA1, FX0A (R29). -/
def ReadsKeys (i : Instr) : Prop := ∃ x, i = .skipKey x ∨ i = .skipNotKey x ∨ i = .waitKey x

/-! ## Sprites -/

/-- Sprite column `c` and row `r` of a draw at (x, y) land on the pixel (px, py), with wrap-around (R232, R234). -/
def Lands (x y : Byte) (c r : Nat) (px : Fin 64) (py : Fin 32) : Prop :=
  px.val = (x.toNat + c) % 64 ∧ py.val = (y.toNat + r) % 32

/-! ## The invariant -/

/-- What holds in every state a run can reach: memory is in canonical form (R50), at most 16 addresses are stacked
(R25), every stacked address and pc are exact, so at most 4096 and 4350 (R24, R122, R123), and a fault record
holds the faulting pc and is what the last step returned (R300, R313). -/
structure State.Inv (s : State) : Prop where
  memWf      : s.mem.wf
  stackDepth : s.stack.length ≤ 16
  stackExact : ∀ a ∈ s.stack, a.toNat ≤ 4096
  pcExact    : s.pc.toNat ≤ 4350
  faultHere  : ∀ f, s.status = .faulted f → f.pc = s.pc ∧ s.returned = some (.fault f)

/-! ## Runs -/

/-- Steps of the listener, one Toggle each, in their order (R320). -/
def listenerSteps (ks : List (Fin 16)) (s : State) : State := ks.foldl (fun t k => listenerStep k t) s

/-- `n` steps of the emulation loop with no Toggle among them (R320). -/
def loopSteps : Nat → State → Result
  | 0, s => .next s
  | n + 1, s =>
    match loopStep s with
    | .next t => loopSteps n t
    | .fault r => .fault r
    | .refused r => .refused r

/-- A run from `s` to `t` in which no FX15 is executed, `k` steps complete and any number of steps block in FX0A
(R350). -/
inductive DelayRun : Nat → State → State → Prop where
  | start (s : State) : DelayRun 0 s s
  | completed {k : Nat} {s u t : State} (run : step s = .next u) (ret : u.returned = some .continued)
      (other : ∀ x, ¬ Fetches s (.setDelay x)) (rest : DelayRun k u t) : DelayRun (k + 1) s t
  | blocked {k : Nat} {s u t : State} (run : step s = .next u) (ret : u.returned = some .blockForIO)
      (rest : DelayRun k u t) : DelayRun k s t

end Sys2Proof.Machine
end

