-- ==== Sys2Proof/Certificates/Slice0/Obligations.lean ====
section
/-! DEFINITION. The statements for the provers. Each formalises or composes rules of spec/; the docstring names them
and says where a clause rests on a decision of the spec, with its log entry. -/

open Sys2Proof Sys2Proof.Machine

/-- Words written out from the encoding table decode to their instructions.
One or more words of each format of R72, bit by bit as the table writes them, and four words of no row (R73, R75). That 0x0123 and 0x5121 are errors is the strict reading, the spec's decision D19 (log 18). -/
def Obligations.SampleWordsDecode : Prop :=
  decode 0x00E0 = .instr .clearScreen ∧ decode 0x1ABC = .instr (.jump 0xABC) ∧
  decode 0xC30F = .instr (.random 3 0x0F) ∧
  decode 0x5120 = .instr (.skipEqReg 1 2) ∧ decode 0x8ABE = .instr (.shiftLeft 0xA 0xB) ∧
  decode 0xBFFF = .instr (.jumpV0 0xFFF) ∧ decode 0xD12F = .instr (.draw 1 2 0xF) ∧
  decode 0xE1A1 = .instr (.skipNotKey 1) ∧ decode 0xF10A = .instr (.waitKey 1) ∧
  decode 0xFF65 = .instr (.loadRegs 0xF) ∧ decode 0x0123 = .error 0x0123 ∧ decode 0x5121 = .error 0x5121 ∧
  decode 0x8AB8 = .error 0x8AB8 ∧ decode 0xF175 = .error 0xF175

/-- Decoding the encoding of any well-formed instruction gives it back, as a word and as bytes.
No bit of an operand is dropped, and exactly two bytes are consumed (R70, R71, R72). -/
def Obligations.DecodeOfEncodeIsTheInstruction : Prop :=
  ∀ i : Instr, i.wellFormed = true →
    decode (encode i) = .instr i ∧
      ∀ rest, decodeBytes (encodeBytes i ++ rest) = .instr i rest

/-- A word that decodes to an instruction is that instruction's encoding.
That a word with another literal digit is not the instruction's, so that no bit is ignored, is R74's strict reading, the spec's decision D19 (log 18). -/
def Obligations.EncodeOfDecodeIsTheWord : Prop :=
  ∀ (w : Word) (i : Instr), decode w = .instr i → encode i = w ∧ i.wellFormed = true

/-- A word is a decode error exactly where the table of illegal encodings lists it.
R75's table; that 0NNN and don't-care nibbles are errors is the spec's decision D19 (log 18). -/
def Obligations.DecodeErrorsAreTheIllegalWords : Prop :=
  ∀ w : Word, (decode w = .error w ↔ IllegalWord w.toNat) ∧ ∀ w', decode w = .error w' → w' = w

/-- The decoder agrees with the opcode table: each word gives the micro-op of the one row it matches, and an error where it matches none.
R73's condition and micro-op columns; in particular no word matches two rows. That a literal digit must match is the spec's decision D19 (log 18). -/
def Obligations.EachWordMatchesAtMostOneRow : Prop :=
  ∀ w : Word, (opcodeRows w).length = 34 ∧
    ((opcodeRows w).filter (rowMatches w)).map OpcodeRow.op =
      match decode w with
      | .instr i => [i]
      | .error _ => []

/-- A step of a Running machine executes the instruction whose word lies at pc.
That a step is one iteration of the loop is log 2. What the step adds around exec is `beginIteration` (the snapshot) and `endIteration` (render, ClearAll); see KeypadFollowsTheSchedulerIteration for both. -/
def Obligations.StepRunsTheDecodedInstruction : Prop :=
  ∀ (s : State) (i : Instr), i.wellFormed = true → Fetches s i →
    step s =
      match exec i (beginIteration s) with
      | .next t => .next (endIteration t)
      | .fault r => .fault r
      | .refused r => .refused r

/-- Fetch range, then alignment, then decode: each failing check is the fault the step takes.
The fault kinds for fetch are the spec's decisions D9, D10 and the order is D22 (logs 9, 11). That 0NNN and words with another literal digit are illegal is D19 (log 18), and that a fault changes status alone is D20 (log 1). With `Read` an odd pc is fetched from. -/
def Obligations.FetchAndDecodeFaultsInOrder : Prop :=
  ∀ s : State,
    (4094 < s.pc.toNat → ∃ t, executeOne s = .next t ∧ TookFault .fetchOutOfRange s t) ∧
    (s.pc.toNat ≤ 4094 → s.pc.toNat % 2 = 1 → s.params.oddPcFetch = .fault →
      ∃ t, executeOne s = .next t ∧ TookFault .misalignedFetch s t) ∧
    (Fetchable s → IllegalWord (wordAtPc s).toNat →
      ∃ t, executeOne s = .next t ∧ TookFault (.decodeError (wordAtPc s)) s t)

/-- A fault sets status alone, names its own instruction, and no step follows it.
Over every instruction and every fault. That no write of the faulting step survives is the spec's decision D20, and that a fault is a next state is the model's reading (log 1). The keypad array is the host's and follows the listener. -/
def Obligations.FaultedStateIsPreciseAndFinal : Prop :=
  ∀ (s t : State) (f : FaultRecord), s.status = .running → step s = .next t → t.status = .faulted f →
    SameBlock s t ∧ f.pc = s.pc ∧ t.returned = some (.fault f) ∧ step t = .fault (.stopped f)

/-- Only FX0A with no key pressed returns BlockForIO, and it writes nothing.
Over every instruction. -/
def Obligations.OnlyAnEmptyKeyWaitBlocks : Prop :=
  ∀ s t : State, executeOne s = .next t → t.returned = some .blockForIO →
    (∃ x, decode (wordAtPc s) = .instr (.waitKey x)) ∧ (∀ k : Fin 16, s.snapshot[k.val] = false) ∧
      SameBlock s t ∧ t.status = s.status ∧ SameHost s t ∧ t.draws = s.draws

/-- Every completed step counts both timers down by one, floored at 0, after the instruction's own write.
R106 over every instruction; natural subtraction is the floor at 0. The clauses for FX15, FX18 and FX07 are the sentences that R106 marks as derived from itself and R260 to R262. -/
def Obligations.CompletedStepCountsTimersDown : Prop :=
  ∀ (s t : State) (i : Instr), Fetches s i → executeOne s = .next t → t.returned ≠ some .blockForIO →
    t.status = s.status →
    t.returned = some .continued ∧
    (∀ x, i = .setDelay x → t.delay.toNat = (s.getV x).toNat - 1) ∧
    ((∀ x, i ≠ .setDelay x) → t.delay.toNat = s.delay.toNat - 1) ∧
    (∀ x, i = .setSound x → t.sound.toNat = (s.getV x).toNat - 1) ∧
    ((∀ x, i ≠ .setSound x) → t.sound.toNat = s.sound.toNat - 1) ∧
    (∀ x, i = .readDelay x → t.getV x = s.delay)

/-- Outside the four control transfers a completed step moves pc by 2, or by 4 for a skip.
Over every instruction; the sums are exact (R105). Each skip's condition is stated with the skip. -/
def Obligations.CompletedStepMovesPcByItsEffect : Prop :=
  ∀ (s t : State) (i : Instr), Fetches s i → executeOne s = .next t → t.returned = some .continued →
    i ≠ .ret → (∀ a, i ≠ .jump a ∧ i ≠ .call a ∧ i ≠ .jumpV0 a) →
    t.pc.toNat = s.pc.toNat + 2 ∨
      (t.pc.toNat = s.pc.toNat + 4 ∧
        ∃ x y nn, i = .skipEqImm x nn ∨ i = .skipNeImm x nn ∨ i = .skipEqReg x y ∨ i = .skipNeReg x y ∨
          i = .skipKey x ∨ i = .skipNotKey x)

/-- Every step keeps the invariant: canonical memory, bounded stack, exact pc and return addresses, precise fault record.
From every state that meets it, whatever memory, keys, parameters and random bytes. The bounds are why pc never wraps, the spec's decision D9 (log 11), and that a fault keeps pc is D20 (log 1). -/
def Obligations.EveryStepKeepsTheStateInvariant : Prop :=
  ∀ s t : State, s.Inv → step s = .next t → t.Inv

/-- The reset state meets the invariant, and so does any machine powered on and loaded with a ROM.
The invariant holds at every start the spec gives (R340, R341, R343). -/
def Obligations.ResetMeetsTheStateInvariant : Prop :=
  State.reset.Inv ∧
    ∀ (p : Config.Params) (fontBytes : Vector Byte 80),
      (powerOn p fontBytes).Inv ∧ ∀ rom t, loadRom rom (powerOn p fontBytes) = .loaded t → t.Inv

/-- A Running machine always has a step, and it returns Continue, BlockForIO or Fault(f) and nothing else.
No instruction form is refused, whatever the state (R76, R100, R311). -/
def Obligations.RunningStepReturnsExactlyOneStatus : Prop :=
  ∀ s : State, s.status = .running →
    ∃ t, step s = .next t ∧
      ((t.returned = some .continued ∧ t.status = .running) ∨
       (t.returned = some .blockForIO ∧ t.status = .running) ∨
       ∃ f, t.returned = some (.fault f) ∧ t.status = .faulted f)

/-- 00EE pops the last stacked address into pc; with an empty stack it takes StackUnderflow.
R120. That the fault leaves the rest unchanged is the spec's decision D20 (log 1). -/
def Obligations.ReturnPopsIntoPc : Prop :=
  ∀ s : State,
    (∀ rest a, s.stack = rest ++ [a] →
      Runs .ret s fun t => t.pc = a ∧ t.stack = rest ∧ ControlOnly s t) ∧
    (s.stack = [] → Runs .ret s fun t => TookFault .stackUnderflow s t)

/-- 1NNN sets pc to NNN, whatever NNN is.
R121; the target is checked at the next fetch (see FetchAndDecodeFaultsInOrder). -/
def Obligations.JumpSetsPc : Prop :=
  ∀ (nnn : Addr12) (s : State),
    Runs (.jump nnn) s fun t => t.pc.toNat = nnn.toNat ∧ t.stack = s.stack ∧ ControlOnly s t

/-- 2NNN pushes pc + 2 and jumps to NNN; the 17th nested call takes StackOverflow.
R122; the depth at which it faults is R25's, and that the fault leaves the rest unchanged is the spec's decision D20 (log 1). pc is at most 4094 for every fetched instruction, so pc + 2 is exact. -/
def Obligations.CallPushesTheReturnAddress : Prop :=
  ∀ (nnn : Addr12) (s : State),
    (s.pc.toNat ≤ 4094 → s.stack.length < 16 →
      Runs (.call nnn) s fun t =>
        t.pc.toNat = nnn.toNat ∧ (∃ a, t.stack = s.stack ++ [a] ∧ a.toNat = s.pc.toNat + 2) ∧ ControlOnly s t) ∧
    (s.stack.length = 16 → Runs (.call nnn) s fun t => TookFault .stackOverflow s t)

/-- BNNN sets pc to the exact sum NNN + V0.
R123. That pc does not wrap is the spec's decision D9 (log 11). -/
def Obligations.JumpV0AddsV0 : Prop :=
  ∀ (nnn : Addr12) (s : State),
    Runs (.jumpV0 nnn) s fun t =>
      t.pc.toNat = nnn.toNat + (s.getV 0).toNat ∧ t.stack = s.stack ∧ ControlOnly s t

/-- A RET that finds the stack as a CALL left it resumes after the CALL with the stack as before it.
R120: the returned address is whatever the matching 2NNN pushed. -/
def Obligations.CallThenReturnComesBack : Prop :=
  ∀ (nnn : Addr12) (s t u : State), s.pc.toNat ≤ 4094 → exec (.call nnn) s = .next t →
    t.returned = some .continued → u.stack = t.stack →
    Runs .ret u fun v => v.pc.toNat = s.pc.toNat + 2 ∧ v.stack = s.stack ∧ v.returned = some .continued

/-- 3XNN skips where VX equals NN, 4XNN where it does not.
R140, R141, R105. -/
def Obligations.ImmediateSkips : Prop :=
  ∀ (x : Reg) (nn : Byte) (s : State), s.pc.toNat ≤ 4094 →
    (Runs (.skipEqImm x nn) s fun t =>
      t.pc.toNat = s.pc.toNat + (if s.getV x = nn then 4 else 2) ∧ t.stack = s.stack ∧ ControlOnly s t) ∧
    (Runs (.skipNeImm x nn) s fun t =>
      t.pc.toNat = s.pc.toNat + (if s.getV x = nn then 2 else 4) ∧ t.stack = s.stack ∧ ControlOnly s t)

/-- 5XY0 skips where VX equals VY, 9XY0 where it does not.
R142, R143, R105; that a low nibble other than 0 is a decode error is DecodeErrorsAreTheIllegalWords. -/
def Obligations.RegisterSkips : Prop :=
  ∀ (x y : Reg) (s : State), s.pc.toNat ≤ 4094 →
    (Runs (.skipEqReg x y) s fun t =>
      t.pc.toNat = s.pc.toNat + (if s.getV x = s.getV y then 4 else 2) ∧ t.stack = s.stack ∧ ControlOnly s t) ∧
    (Runs (.skipNeReg x y) s fun t =>
      t.pc.toNat = s.pc.toNat + (if s.getV x = s.getV y then 2 else 4) ∧ t.stack = s.stack ∧ ControlOnly s t)

/-- EX9E skips where key VX of the snapshot is pressed, EXA1 where it is not.
R144, R145, for VX at most 15; KeyIndexAbove15Faults has the rest. -/
def Obligations.KeySkips : Prop :=
  ∀ (x : Reg) (k : Fin 16) (s : State), s.pc.toNat ≤ 4094 → (s.getV x).toNat = k.val →
    (Runs (.skipKey x) s fun t =>
      t.pc.toNat = s.pc.toNat + (if s.snapshot[k.val] = true then 4 else 2) ∧ t.stack = s.stack ∧
        ControlOnly s t) ∧
    (Runs (.skipNotKey x) s fun t =>
      t.pc.toNat = s.pc.toNat + (if s.snapshot[k.val] = true then 2 else 4) ∧ t.stack = s.stack ∧
        ControlOnly s t)

/-- EX9E and EXA1 with VX above 15 take KeyIndexOutOfRange(VX).
The fault is the spec's decision D17 (log 16), and that it changes status alone is D20 (log 1). -/
def Obligations.KeyIndexAbove15Faults : Prop :=
  ∀ (x : Reg) (s : State), 15 < (s.getV x).toNat →
    (Runs (.skipKey x) s fun t => TookFault (.keyIndexOutOfRange (s.getV x)) s t) ∧
    (Runs (.skipNotKey x) s fun t => TookFault (.keyIndexOutOfRange (s.getV x)) s t)

/-- 6XNN loads NN into VX, 8XY0 copies VY into VX.
R160, R162. -/
def Obligations.LoadsAndCopies : Prop :=
  ∀ (x y : Reg) (nn : Byte) (s : State), s.pc.toNat ≤ 4094 →
    (Runs (.loadImm x nn) s fun t => t.getV x = nn ∧ RegistersOnly [x] s t) ∧
    (Runs (.move x y) s fun t => t.getV x = s.getV y ∧ RegistersOnly [x] s t)

/-- 7XNN adds NN to VX modulo 256 and writes no flag.
R161, C9. -/
def Obligations.AddImmediateWrapsWithoutFlag : Prop :=
  ∀ (x : Reg) (nn : Byte) (s : State), s.pc.toNat ≤ 4094 →
    Runs (.addImm x nn) s fun t =>
      (t.getV x).toNat = ((s.getV x).toNat + nn.toNat) % 256 ∧ RegistersOnly [x] s t

/-- 8XY1, 8XY2, 8XY3 are OR, AND and XOR of each bit, with no flag.
R163 to R165. That VF is not written is the spec's decision D15 (log 15). -/
def Obligations.LogicResultsBitByBit : Prop :=
  ∀ (x y : Reg) (s : State), s.pc.toNat ≤ 4094 →
    (Runs (.or x y) s fun t =>
      (∀ k, k < 8 → (t.getV x).getLsbD k = ((s.getV x).getLsbD k || (s.getV y).getLsbD k)) ∧
        RegistersOnly [x] s t) ∧
    (Runs (.and x y) s fun t =>
      (∀ k, k < 8 → (t.getV x).getLsbD k = ((s.getV x).getLsbD k && (s.getV y).getLsbD k)) ∧
        RegistersOnly [x] s t) ∧
    (Runs (.xor x y) s fun t =>
      (∀ k, k < 8 → (t.getV x).getLsbD k = ((s.getV x).getLsbD k ^^ (s.getV y).getLsbD k)) ∧
        RegistersOnly [x] s t)

/-- 8XY4 adds modulo 256 and sets VF to the carry, the flag last.
R166. That for X = F the flag survives is the spec's decision D13 (log 13). -/
def Obligations.AddWithCarry : Prop :=
  ∀ (x y : Reg) (s : State), s.pc.toNat ≤ 4094 →
    Runs (.addCarry x y) s fun t =>
      (x ≠ vf → (t.getV x).toNat = ((s.getV x).toNat + (s.getV y).toNat) % 256) ∧
        (t.getV vf).toNat = (if 255 < (s.getV x).toNat + (s.getV y).toNat then 1 else 0) ∧
        RegistersOnly [x, vf] s t

/-- 8XY5 and 8XY7 subtract modulo 256 and set VF to not-borrow, the flag last.
R167, R169. Equal operands do not borrow (D14, log 14) and for X = F the flag survives (D13, log 13): the spec's decisions. -/
def Obligations.SubtractWithNotBorrow : Prop :=
  ∀ (x y : Reg) (s : State), s.pc.toNat ≤ 4094 →
    (Runs (.subNotBorrow x y) s fun t =>
      (x ≠ vf → ((t.getV x).toNat + (s.getV y).toNat) % 256 = (s.getV x).toNat) ∧
        (t.getV vf).toNat = (if (s.getV y).toNat ≤ (s.getV x).toNat then 1 else 0) ∧
        RegistersOnly [x, vf] s t) ∧
    (Runs (.reverseSub x y) s fun t =>
      (x ≠ vf → ((t.getV x).toNat + (s.getV x).toNat) % 256 = (s.getV y).toNat) ∧
        (t.getV vf).toNat = (if (s.getV x).toNat ≤ (s.getV y).toNat then 1 else 0) ∧
        RegistersOnly [x, vf] s t)

/-- 8XY6 and 8XYE shift VX or VY, as SHIFT_SOURCE says, by one and set VF to the bit shifted out.
R168, R170. SHIFT_SOURCE is the spec's parameter D12 (log 9); for X = F the flag survives (D13, log 13). -/
def Obligations.ShiftsByOneForEitherSource : Prop :=
  ∀ (x y : Reg) (s : State), s.pc.toNat ≤ 4094 →
    ∀ src : Byte, (s.params.shiftSource = .vx → src = s.getV x) → (s.params.shiftSource = .vy → src = s.getV y) →
    (Runs (.shiftRight x y) s fun t =>
      (x ≠ vf → ∀ k, k < 8 → (t.getV x).getLsbD k = src.getLsbD (k + 1)) ∧
        (t.getV vf).toNat = (if src.getLsbD 0 then 1 else 0) ∧ RegistersOnly [x, vf] s t) ∧
    (Runs (.shiftLeft x y) s fun t =>
      (x ≠ vf → (t.getV x).getLsbD 0 = false ∧ ∀ k, k < 7 → (t.getV x).getLsbD (k + 1) = src.getLsbD k) ∧
        (t.getV vf).toNat = (if src.getLsbD 7 then 1 else 0) ∧ RegistersOnly [x, vf] s t)

/-- CXNN writes the step's free byte masked by NN into VX, so no bit outside NN is set.
R171. The draw is a free value, the spec's decision D23: the statement holds whatever it is (log 4). -/
def Obligations.RandomIsTheDrawMasked : Prop :=
  ∀ (x : Reg) (nn : Byte) (s : State), s.pc.toNat ≤ 4094 →
    Runs (.random x nn) s fun t =>
      (∀ k, k < 8 → (t.getV x).getLsbD k = (nn.getLsbD k && (Config.randomByte s.draws).getLsbD k)) ∧
        SameRegsExcept [x] s t ∧ t.index = s.index ∧ t.stack = s.stack ∧ SameMemory s t ∧ SamePixels s t ∧
        t.draws = s.draws + 1 ∧ Ticked s t ∧ Advanced s t ∧ Continued s t

/-- ANNN loads NNN into I, FX29 loads the exact product 5 * VX.
R200, R202. -/
def Obligations.LoadIndexAndFontAddress : Prop :=
  ∀ (nnn : Addr12) (x : Reg) (s : State), s.pc.toNat ≤ 4094 →
    (Runs (.loadIndex nnn) s fun t =>
      t.index.toNat = nnn.toNat ∧ SameMemory s t ∧ IndexAndRegisters [] s t) ∧
    (Runs (.fontAddr x) s fun t =>
      t.index.toNat = 5 * (s.getV x).toNat ∧ SameMemory s t ∧ IndexAndRegisters [] s t)

/-- FX1E adds VX to I exactly; a sum above 0xFFFF takes IndexOverflow.
R201. The fault is the spec's decision D8 (log 10) that it changes status alone is D20 (log 1), and that VF is not written is D16 (log 15). -/
def Obligations.AddIndexIsExact : Prop :=
  ∀ (x : Reg) (s : State),
    (s.pc.toNat ≤ 4094 → s.index.toNat + (s.getV x).toNat ≤ 0xFFFF →
      Runs (.addIndex x) s fun t =>
        t.index.toNat = s.index.toNat + (s.getV x).toNat ∧ SameMemory s t ∧ IndexAndRegisters [] s t) ∧
    (0xFFFF < s.index.toNat + (s.getV x).toNat → Runs (.addIndex x) s fun t => TookFault .indexOverflow s t)

/-- FX33 stores the hundreds, tens and units digit of VX at I, I+1, I+2.
R203. The digit order is the spec's decision D18, from general knowledge (log 17). The canonical form of memory is the invariant. -/
def Obligations.StoreBcdWritesThreeDigits : Prop :=
  ∀ (x : Reg) (s : State), s.mem.wf → s.pc.toNat ≤ 4094 → s.index.toNat + 2 ≤ 4095 →
    Runs (.storeBcd x) s fun t =>
      (t.mem.read s.index.toNat).toNat * 100 + (t.mem.read (s.index.toNat + 1)).toNat * 10 +
          (t.mem.read (s.index.toNat + 2)).toNat = (s.getV x).toNat ∧
        (∀ k, k < 3 → (t.mem.read (s.index.toNat + k)).toNat ≤ 9) ∧
        SameMemoryOutside s.index.toNat 3 s t ∧ t.index = s.index ∧ IndexAndRegisters [] s t

/-- FX55 stores V0..VX at I, I+1, …, and adds X + 1 to I.
R204. The canonical form of memory is the invariant. -/
def Obligations.StoreRegsWritesTheBlock : Prop :=
  ∀ (x : Reg) (s : State), s.mem.wf → s.pc.toNat ≤ 4094 → s.index.toNat + x.val ≤ 4095 →
    Runs (.storeRegs x) s fun t =>
      (∀ k : Reg, k ≤ x → t.mem.read (s.index.toNat + k.val) = s.getV k) ∧
        SameMemoryOutside s.index.toNat (x.val + 1) s t ∧
        t.index.toNat = s.index.toNat + x.val + 1 ∧ IndexAndRegisters [] s t

/-- FX65 loads V0..VX from I, I+1, …, and adds X + 1 to I.
R205. -/
def Obligations.LoadRegsReadsTheBlock : Prop :=
  ∀ (x : Reg) (s : State), s.pc.toNat ≤ 4094 → s.index.toNat + x.val ≤ 4095 →
    Runs (.loadRegs x) s fun t =>
      (∀ k : Reg, k ≤ x → t.getV k = s.mem.read (s.index.toNat + k.val)) ∧
        (∀ k : Reg, x < k → t.getV k = s.getV k) ∧
        t.index.toNat = s.index.toNat + x.val + 1 ∧ SameMemory s t ∧
        IndexAndRegisters (allKeys.filter (fun k => decide (k ≤ x))) s t

/-- FX33, FX55, FX65 and DXYN with any address above 4095 take MemoryOutOfRange and change nothing.
The fault and its precision are the spec's decisions D11, D20, D29 (logs 1, 12). -/
def Obligations.BlockBeyondMemoryFaults : Prop :=
  ∀ (x y : Reg) (n : Nibble) (s : State),
    (4095 < s.index.toNat + 2 →
      Runs (.storeBcd x) s fun t => TookFault (.memoryOutOfRange (max s.index.toNat 4096)) s t) ∧
    (4095 < s.index.toNat + x.val →
      (Runs (.storeRegs x) s fun t => TookFault (.memoryOutOfRange (max s.index.toNat 4096)) s t) ∧
      (Runs (.loadRegs x) s fun t => TookFault (.memoryOutOfRange (max s.index.toNat 4096)) s t)) ∧
    (0 < n.toNat → 4095 < s.index.toNat + n.toNat - 1 →
      Runs (.draw x y n) s fun t => TookFault (.memoryOutOfRange (max s.index.toNat 4096)) s t)

/-- FX65 from where FX55 stored gives the stored registers back.
Composition of R204 and R205. -/
def Obligations.StoreThenLoadRestoresRegisters : Prop :=
  ∀ (x : Reg) (s t u : State), s.mem.wf → exec (.storeRegs x) s = .next t → t.returned = some .continued →
    u.mem = t.mem → u.index = s.index →
    Runs (.loadRegs x) u fun v =>
      v.returned = some .continued ∧ v.index = t.index ∧ ∀ k : Reg, k ≤ x → v.getV k = s.getV k

/-- A word that FX55 or FX33 stores is the word that every later fetch at its address reads, while its two bytes are not stored to again.
Self-modifying code needs no fence (R64). The order of the digits is the spec's decision D18 (log 17). The canonical form of memory is the invariant. -/
def Obligations.StoredCodeIsFetched : Prop :=
  ∀ (x : Reg) (s t u : State), s.mem.wf → t.returned = some .continued →
    u.mem.read u.pc.toNat = t.mem.read u.pc.toNat →
    u.mem.read (u.pc.toNat + 1) = t.mem.read (u.pc.toNat + 1) →
    (exec (.storeRegs x) s = .next t → ∀ k : Reg, k.val + 1 ≤ x.val → u.pc.toNat = s.index.toNat + k.val →
      (wordAtPc u).toNat = (s.getV k).toNat * 256 + (s.getV (k + 1)).toNat) ∧
    (exec (.storeBcd x) s = .next t →
      (u.pc.toNat = s.index.toNat →
        (wordAtPc u).toNat = (s.getV x).toNat / 100 * 256 + (s.getV x).toNat / 10 % 10) ∧
      (u.pc.toNat = s.index.toNat + 1 →
        (wordAtPc u).toNat = (s.getV x).toNat / 10 % 10 * 256 + (s.getV x).toNat % 10))

/-- 00E0 sets every pixel to 0 and changes no register.
R231, R237. -/
def Obligations.ClearScreenClearsEveryPixel : Prop :=
  ∀ s : State, s.pc.toNat ≤ 4094 →
    Runs .clearScreen s fun t =>
      (∀ px py, t.fb.pixel px py = false) ∧ SameRegsExcept [] s t ∧ t.index = s.index ∧ t.stack = s.stack ∧
        SameMemory s t ∧ t.draws = s.draws ∧ Ticked s t ∧ Advanced s t ∧ Continued s t

/-- DXYN XORs the N bytes at I into the pixels with wrap-around and sets VF to the collision.
R238 through R232, R234 and R239, without the model's own compositor functions. The range in the hypothesis is that outside which the draw faults (D11, D29, log 12). -/
def Obligations.DrawXorsTheSpriteIntoThePixels : Prop :=
  ∀ (x y : Reg) (n : Nibble) (s : State), s.pc.toNat ≤ 4094 →
    (n.toNat = 0 ∨ s.index.toNat + n.toNat - 1 ≤ 4095) →
    Runs (.draw x y n) s fun t =>
      (∀ r c px py, r < n.toNat → c < 8 → Lands (s.getV x) (s.getV y) c r px py →
        t.fb.pixel px py = (s.fb.pixel px py ^^ (s.mem.read (s.index.toNat + r)).getLsbD (7 - c))) ∧
      (∀ px py, (∀ r c, r < n.toNat → c < 8 → ¬ Lands (s.getV x) (s.getV y) c r px py) →
        t.fb.pixel px py = s.fb.pixel px py) ∧
      ((t.getV vf).toNat = 1 ∨ (t.getV vf).toNat = 0) ∧
      ((t.getV vf).toNat = 1 ↔
        ∃ r c px py, r < n.toNat ∧ c < 8 ∧ Lands (s.getV x) (s.getV y) c r px py ∧
          (s.mem.read (s.index.toNat + r)).getLsbD (7 - c) = true ∧ s.fb.pixel px py = true) ∧
      SameRegsExcept [vf] s t ∧ t.index = s.index ∧ t.stack = s.stack ∧ SameMemory s t ∧ t.draws = s.draws ∧
      Ticked s t ∧ Advanced s t ∧ Continued s t

/-- For a sprite of at most 15 rows the pixel-by-pixel draw equals the row-parallel datapath.
R235: every pixel is read once, from the pre-draw framebuffer, and written once, so all rows may be updated at once. -/
def Obligations.SequentialDrawEqualsRowParallelDatapath : Prop :=
  ∀ (f : Framebuffer) (x y : Byte) (sprite : List Byte), sprite.length ≤ 15 →
    (∀ r row c px py, sprite[r]? = some row → c < 8 → Lands x y c r px py →
      (fbDraw f x y sprite).fb.pixel px py = (f.pixel px py ^^ row.getLsbD (7 - c))) ∧
    (∀ px py, (∀ r c, r < sprite.length → c < 8 → ¬ Lands x y c r px py) →
      (fbDraw f x y sprite).fb.pixel px py = f.pixel px py) ∧
    ((fbDraw f x y sprite).collision = true ↔
      ∃ r row c px py, sprite[r]? = some row ∧ c < 8 ∧ Lands x y c r px py ∧
        f.pixel px py = true ∧ row.getLsbD (7 - c) = true)

/-- The collision is true exactly if some pixel goes from 1 to 0, and a 0 bit never changes a pixel.
R233, for the sprites DXYN draws. -/
def Obligations.CollisionIffAPixelIsErased : Prop :=
  ∀ (f : Framebuffer) (x y : Byte) (sprite : List Byte), sprite.length ≤ 15 →
    ((fbDraw f x y sprite).collision = true ↔
      ∃ px py, f.pixel px py = true ∧ (fbDraw f x y sprite).fb.pixel px py = false) ∧
    (∀ r row c px py, sprite[r]? = some row → c < 8 → Lands x y c r px py → row.getLsbD (7 - c) = false →
      (fbDraw f x y sprite).fb.pixel px py = f.pixel px py)

/-- Target coordinates wrap: reducing the start modulo 64 and 32 first changes nothing.
R234; the targets themselves are in SequentialDrawEqualsRowParallelDatapath. -/
def Obligations.DrawWrapsTheStart : Prop :=
  ∀ (f : Framebuffer) (x x' y y' : Byte) (sprite : List Byte),
    x.toNat % 64 = x'.toNat % 64 → y.toNat % 32 = y'.toNat % 32 →
    fbDraw f x y sprite = fbDraw f x' y' sprite ∧
      ∀ c r, (targetX x c).val = (x'.toNat % 64 + c) % 64 ∧ (targetY y r).val = (y'.toNat % 32 + r) % 32

/-- Two identical draws restore the framebuffer, and the second collides exactly if the first lit a pixel.
R240, which the spec derives from R232 and R233; the second collision is as 90_conflicts.md C6 reads it. -/
def Obligations.DrawingTwiceRestoresTheFramebuffer : Prop :=
  ∀ (f : Framebuffer) (x y : Byte) (sprite : List Byte), sprite.length ≤ 15 →
    (fbDraw (fbDraw f x y sprite).fb x y sprite).fb = f ∧
    ((fbDraw (fbDraw f x y sprite).fb x y sprite).collision = true ↔
      ∃ px py, f.pixel px py = false ∧ (fbDraw f x y sprite).fb.pixel px py = true) ∧
    (fbDraw fbClear x y sprite).collision = false

/-- fb_read gives the 2048 pixels row by row from the top-left.
R28: the linear index of pixel (x, y) is y*64 + x. -/
def Obligations.ReadIsRowMajorFromTheTopLeft : Prop :=
  ∀ (f : Framebuffer), (fbRead f).length = 2048 ∧
    ∀ (px : Fin 64) (py : Fin 32), (fbRead f)[py.val * 64 + px.val]? = some (f.pixel px py)

/-- FX07 reads the delay before the decrement; FX15 and FX18 leave their timer one less than VX.
R260, R261, R262; the values after the step are derived from R106. -/
def Obligations.TimerInstructions : Prop :=
  ∀ (x : Reg) (s : State), s.pc.toNat ≤ 4094 →
    (Runs (.readDelay x) s fun t => t.getV x = s.delay ∧ RegistersOnly [x] s t) ∧
    (Runs (.setDelay x) s fun t =>
      t.delay.toNat = (s.getV x).toNat - 1 ∧ t.sound.toNat = s.sound.toNat - 1 ∧ SameRegsExcept [] s t ∧
        t.index = s.index ∧ t.stack = s.stack ∧ SameMemory s t ∧ SamePixels s t ∧ t.draws = s.draws ∧
        Advanced s t ∧ Continued s t) ∧
    (Runs (.setSound x) s fun t =>
      t.sound.toNat = (s.getV x).toNat - 1 ∧ t.delay.toNat = s.delay.toNat - 1 ∧ SameRegsExcept [] s t ∧
        t.index = s.index ∧ t.stack = s.stack ∧ SameMemory s t ∧ SamePixels s t ∧ t.draws = s.draws ∧
        Advanced s t ∧ Continued s t)

/-- FX0A writes the lowest pressed key into VX, or blocks with no write at all.
R263, R107. -/
def Obligations.WaitKeyTakesTheLowestOrBlocks : Prop :=
  ∀ (x : Reg) (s : State),
    (∀ k : Fin 16, s.pc.toNat ≤ 4094 → s.snapshot[k.val] = true → (∀ j : Fin 16, j < k → s.snapshot[j.val] = false) →
      Runs (.waitKey x) s fun t => (t.getV x).toNat = k.val ∧ RegistersOnly [x] s t) ∧
    ((∀ k : Fin 16, s.snapshot[k.val] = false) →
      Runs (.waitKey x) s fun t =>
        t.returned = some .blockForIO ∧ SameBlock s t ∧ t.status = s.status ∧ SameHost s t ∧ t.draws = s.draws)

/-- After FX15 writes v and k further steps complete, FX07 reads max(v - (k + 1), 0), blocked steps not counted.
R350, which the spec derives from R106 and R107, over every run, program, key schedule and draw. R350's count includes the FX15 and is k + 1 here. -/
def Obligations.DelayReadAfterCompletedSteps : Prop :=
  ∀ (x y : Reg) (k : Nat) (s u t w : State),
    Fetches s (.setDelay x) → step s = .next u → DelayRun k u t →
    Fetches t (.readDelay y) → step t = .next w →
    (w.getV y).toNat = (s.getV x).toNat - (k + 1)

/-- The sound timer influences nothing: two machines that differ in it alone take the same steps.
R27: no instruction reads it and it drives no output. -/
def Obligations.SoundIsReadByNothing : Prop :=
  ∀ (s : State) (b : Byte),
    (∀ t, step s = .next t → ∃ c, step (s.setSound b) = .next (t.setSound c)) ∧
    (∀ r, step s = .fault r → step (s.setSound b) = .fault r)

/-- Only EX9E, EXA1 and FX0A read the keypad snapshot, and only CXNN reads the random draw.
R29, R34, over every instruction. The draw is a free value (D23, log 4). -/
def Obligations.InputsAreReadOnlyWhereTheSpecSays : Prop :=
  ∀ (i : Instr) (s t : State), exec i s = .next t →
    (¬ ReadsKeys i → ∀ K : Keypad, exec i { s with snapshot := K } = .next { t with snapshot := K }) ∧
    ((∀ x nn, i ≠ .random x nn) → ∀ n : Nat, exec i { s with draws := n } = .next { t with draws := n })

/-- A step sees the keys toggled before its snapshot; Continue clears all keys and renders, BlockForIO keeps them.
R317, R318, and the lost key of R349. That Continue clears every key is the pulse keypad, the spec's decision D34 (log 21), and that a fault renders nothing is D36 (log 29). The characters of the iteration are those that `inputs` prescribes, over which the statement quantifies, or the free ones past its end (log 3). -/
def Obligations.KeypadFollowsTheSchedulerIteration : Prop :=
  ∀ s t : State, s.status = .running → step s = .next t →
    (∀ k : Fin 16, t.snapshot[k.val] = true ↔
      s.keypad[k.val] = true ∨
        ∃ c ∈ (currentInput s).before, keyOfChar s.params.uppercaseHexKeys c = some k) ∧
    (t.returned = some .continued →
      (∀ k : Fin 16, t.keypad[k.val] = false) ∧ t.rendered = some (fbRead t.fb)) ∧
    (t.returned ≠ some .continued →
      t.rendered = s.rendered ∧
        ∀ k : Fin 16, t.keypad[k.val] = true ↔
          t.snapshot[k.val] = true ∨
            ∃ c ∈ (currentInput s).during, keyOfChar s.params.uppercaseHexKeys c = some k) ∧
    t.inputs = s.inputs.tail ∧ t.iterations = s.iterations + 1 ∧ t.params = s.params

/-- '0' to '9' and 'a' to 'f' are keys 0 to 15; 'A' to 'F' only where the parameter accepts them; others are ignored.
R325; the parameter is the spec's decision D31 (log 20). -/
def Obligations.KeyCharactersMapToKeys : Prop :=
  ∀ (u : Config.UppercaseHexKeys) (c : Char) (k : Fin 16), keyOfChar u c = some k ↔
    (k.val ≤ 9 ∧ c.toNat = '0'.toNat + k.val) ∨
    (10 ≤ k.val ∧ c.toNat = 'a'.toNat + (k.val - 10)) ∨
    (10 ≤ k.val ∧ u = .accepted ∧ c.toNat = 'A'.toNat + (k.val - 10))

/-- A ROM of at most 3584 bytes is loaded verbatim from 512 up and nothing else changes; a larger one is rejected.
R341, R342. The empty-ROM clause is R341's derived sentence: it rests on memory reading 0 (the spec's decision D6, log 7) and on 0x0000 being illegal (D19, log 18). The canonical form of memory is the invariant. -/
def Obligations.RomLoadsVerbatimOrNotAtAll : Prop :=
  ∀ (rom : List Byte) (s : State), s.mem.wf →
    (rom.length ≤ 3584 → ∃ m, loadRom rom s = .loaded (s.setMem m) ∧ m.wf ∧
      (∀ i b, rom[i]? = some b → m.read (512 + i) = b) ∧
      ∀ a, (a < 512 ∨ 512 + rom.length ≤ a) → m.read a = s.mem.read a) ∧
    (3584 < rom.length → loadRom rom s = .loadError) ∧
    (∀ t, loadRom [] State.reset = .loaded t → decode (wordAtPc t) = .error 0x0000)

/-- A machine powered on holds its font at 0..79, zeros above it, its parameters, and the reset registers.
R340 for every FONT. The zeros of V, I and memory and the empty stack are the spec's decisions D3 to D6 (logs 6, 7); FONT is D7 (log 8). -/
def Obligations.PowerOnPlacesFontAndParameters : Prop :=
  ∀ (p : Config.Params) (fontBytes : Vector Byte 80),
    (∀ a (h : a < 80), (powerOn p fontBytes).mem.read a = fontBytes[a]) ∧
    (∀ a, 80 ≤ a → a ≤ 4095 → (powerOn p fontBytes).mem.read a = 0) ∧
    (powerOn p fontBytes).params = p ∧ (powerOn p fontBytes).pc.toNat = 512 ∧
    (∀ r : Reg, (powerOn p fontBytes).getV r = 0) ∧ (powerOn p fontBytes).index = 0 ∧
    (powerOn p fontBytes).stack = [] ∧ (powerOn p fontBytes).delay = 0 ∧ (powerOn p fontBytes).sound = 0 ∧
    (∀ px py, (powerOn p fontBytes).fb.pixel px py = false) ∧
    (∀ k : Fin 16, (powerOn p fontBytes).keypad[k.val] = false) ∧ (powerOn p fontBytes).status = .running

/-- A byte of memory changes in a step only by FX33 or FX55, inside its block.
Over every instruction; no access has a side effect (R60). -/
def Obligations.OnlyStoresChangeMemory : Prop :=
  ∀ (s t : State) (a : Nat), executeOne s = .next t → t.mem.read a ≠ s.mem.read a →
    a ≤ 4095 ∧ s.index.toNat ≤ a ∧
      ∃ x, (decode (wordAtPc s) = .instr (.storeBcd x) ∧ a ≤ s.index.toNat + 2) ∨
        (decode (wordAtPc s) = .instr (.storeRegs x) ∧ a ≤ s.index.toNat + x.val)

/-- The framebuffer changes in a step only by 00E0 or DXYN.
R28: only fb_clear and fb_draw write it, and only 00E0 and DXYN drive them (R14). -/
def Obligations.OnlyTheCompositorChangesPixels : Prop :=
  ∀ (s t : State) (px : Fin 64) (py : Fin 32), executeOne s = .next t → t.fb.pixel px py ≠ s.fb.pixel px py →
    decode (wordAtPc s) = .instr .clearScreen ∨ ∃ x y n, decode (wordAtPc s) = .instr (.draw x y n)

/-- A register, VF, I or the stack changes in a step only by an instruction the spec lets write it.
R20, R21, R23, R25 over every instruction. That 8XY1, 8XY2, 8XY3 and FX1E write no flag is the spec's decisions D15 and D16 (log 15). -/
def Obligations.RegistersIndexAndStackHaveTheirWriters : Prop :=
  ∀ s t : State, executeOne s = .next t →
    (∀ r : Reg, t.getV r ≠ s.getV r → ∃ i, decode (wordAtPc s) = .instr i ∧ MayWriteReg r i) ∧
    (t.index ≠ s.index → ∃ i, decode (wordAtPc s) = .instr i ∧ MayWriteIndex i) ∧
    (t.stack ≠ s.stack → ∃ i, decode (wordAtPc s) = .instr i ∧ (i = .ret ∨ ∃ a, i = .call a))

/-- A step is one loop step between listener steps, and every such interleaving is a step (after Continue, later Toggles are the next step's).
R320's two kinds of step, in the order of the lock (R62, the spec's decision D38). That a Toggle has these two places in a step is log 28, and that a Toggle after Continue is one before the next snapshot is R62's 'a Toggle ordered after a ClearAll survives it'. The fields `inputs` and `iterations` are the model's own (log 3). -/
def Obligations.StepIsTheInterleavingOfItsTwoAgents : Prop :=
  ∀ s : State,
    (∀ t, step s = .next t → ∃ (ks ks' : List (Fin 16)) (u : State), loopStep (listenerSteps ks s) = .next u ∧
      t = { listenerSteps ks' u with inputs := s.inputs.tail, iterations := s.iterations + 1 } ∧
      (t.returned = some .continued → ks' = [])) ∧
    (∀ (ks ks' : List (Fin 16)) (u : State), loopStep (listenerSteps ks s) = .next u →
      (u.returned = some .continued → ks' = []) →
      ∃ cs cs', step { s with inputs := [⟨cs, cs'⟩] } =
        .next { listenerSteps ks' u with inputs := [], iterations := s.iterations + 1 })

/-- A listener step sets one key of the keypad array and nothing else, at any time, and the next loop step sees the key.
R317's Toggle, which never clears a slot (the pulse keypad, D34, log 21), and R320's listener step, in every status. -/
def Obligations.ListenerStepTogglesOneKey : Prop :=
  ∀ (k : Fin 16) (s : State),
    (listenerStep k s).keypad[k.val] = true ∧
    (∀ j : Fin 16, j ≠ k → (listenerStep k s).keypad[j.val] = s.keypad[j.val]) ∧
    (∃ K, listenerStep k s = { s with keypad := K }) ∧
    (s.Inv → (listenerStep k s).Inv) ∧
    (∀ t, loopStep (listenerStep k s) = .next t → t.snapshot[k.val] = true)

/-- A waiting FX0A polls for any number of loop steps with no change until a Toggle, and any one Toggle ends the wait.
R321: only a Toggle wakes the poll, and no step of the model assumes that one arrives. -/
def Obligations.WaitingEndsExactlyByAToggle : Prop :=
  ∀ (s : State) (x : Reg), Fetches s (.waitKey x) →
    ((∀ k : Fin 16, s.keypad[k.val] = false) → ∀ n, ∃ t, loopSteps n s = .next t ∧
      SameBlock s t ∧ t.status = s.status ∧ ∀ k : Fin 16, t.keypad[k.val] = false) ∧
    (∀ k : Fin 16, ∃ t, loopStep (listenerStep k s) = .next t ∧ t.returned = some .continued)
end

