-- ==== Sys2Proof/Laws/Keys.lean ====
section
/-! SUPPORT. The keypad array and the listener (60_exceptions.md R317, R325). -/

namespace Sys2Proof.Machine

/-- A slot after a Toggle: true if it is the key's, as before otherwise. -/
theorem pressed_toggle (K : Keypad) (k j : Fin 16) :
    (toggle K k).pressed j = (decide (j = k) || K.pressed j) := by
  simp only [Keypad.pressed, toggle, Vector.getElem_set, Fin.ext_iff, eq_comm]
  split <;> simp_all

theorem pressed_clearAll (k : Fin 16) : clearAll.pressed k = false := by
  simp [clearAll, Keypad.pressed]

/-- A key is pressed after some characters if it was before, or one of them is its character. -/
theorem pressed_listenAll (u : Config.UppercaseHexKeys) (cs : List Char) (K : Keypad) (k : Fin 16) :
    (listenAll u K cs).pressed k = true ↔ K.pressed k = true ∨ ∃ c ∈ cs, keyOfChar u c = some k := by
  induction cs generalizing K with
  | nil => simp [listenAll]
  | cons c cs ih =>
    rw [listenAll, ih]
    unfold listen
    split
    · rename_i j hj
      simp only [pressed_toggle, Bool.or_eq_true, decide_eq_true_eq, List.mem_cons, exists_eq_or_imp, hj,
        Option.some.injEq]
      constructor
      · rintro ((rfl | h) | h)
        · exact .inr (.inl rfl)
        · exact .inl h
        · exact .inr (.inr h)
      · rintro (h | rfl | h)
        · exact .inl (.inr h)
        · exact .inl (.inl rfl)
        · exact .inr h
    · rename_i hn
      simp [hn]

@[simp] theorem listenAll_nil (u : Config.UppercaseHexKeys) (K : Keypad) : listenAll u K [] = K := rfl

end Sys2Proof.Machine
end

