-- ==== Sys2Proof/Laws/Agents.lean ====
section
/-! SUPPORT. The two agents (60_exceptions.md R320): what the listener's steps can do, and that hearing key characters
is a sequence of them. -/

namespace Sys2Proof.Machine

theorem pressed_listenerStep (k j : Fin 16) (s : State) :
    (listenerStep k s).keypad.pressed j = (decide (j = k) || s.keypad.pressed j) :=
  pressed_toggle s.keypad k j

@[simp] theorem listenerSteps_nil (s : State) : listenerSteps [] s = s := rfl

@[simp] theorem listenerSteps_cons (k : Fin 16) (ks : List (Fin 16)) (s : State) :
    listenerSteps (k :: ks) s = listenerSteps ks (listenerStep k s) := rfl

@[simp] theorem hear_nil (s : State) : hear [] s = s := rfl

theorem hear_cons (c : Char) (cs : List Char) (s : State) : hear (c :: cs) s = hear cs (hear [c] s) := rfl

/-- One character is one Toggle, or nothing (R325). -/
theorem hear_one (c : Char) (s : State) :
    hear [c] s =
      match keyOfChar s.params.uppercaseHexKeys c with
      | some k => listenerStep k s
      | none => s := by
  simp only [hear, listenAll, Machine.listen, listenerStep]
  cases keyOfChar s.params.uppercaseHexKeys c <;> rfl

/-- The listener's steps write the keypad array alone. -/
theorem listenerSteps_cases (ks : List (Fin 16)) (s : State) : ∃ K, listenerSteps ks s = { s with keypad := K } := by
  induction ks generalizing s with
  | nil => exact ⟨s.keypad, rfl⟩
  | cons k ks ih =>
    obtain ⟨K, h⟩ := ih (listenerStep k s)
    exact ⟨K, h⟩

/-- Hearing characters is some steps of the listener. -/
theorem hear_eq_listenerSteps (cs : List Char) (s : State) : ∃ ks, hear cs s = listenerSteps ks s := by
  induction cs generalizing s with
  | nil => exact ⟨[], rfl⟩
  | cons c cs ih =>
    obtain ⟨ks, h⟩ := ih (hear [c] s)
    rw [hear_cons, h, hear_one]
    split
    · rename_i k _
      exact ⟨k :: ks, rfl⟩
    · exact ⟨ks, rfl⟩

/-- The characters of the sixteen keys, for both values of the parameter (R325). -/
theorem keyOfChar_surjective (u : Config.UppercaseHexKeys) (k : Fin 16) : ∃ c, keyOfChar u c = some k := by
  have digit : ∀ k : Fin 16,
      keyOfChar u (['0', '1', '2', '3', '4', '5', '6', '7', '8', '9', 'a', 'b', 'c', 'd', 'e', 'f'][k.val]) = some k := by
    cases u <;> decide
  exact ⟨_, digit k⟩

/-- Any steps of the listener come from some characters. -/
theorem listenerSteps_eq_hear (ks : List (Fin 16)) (s : State) : ∃ cs, listenerSteps ks s = hear cs s := by
  induction ks generalizing s with
  | nil => exact ⟨[], rfl⟩
  | cons k ks ih =>
    obtain ⟨cs, h⟩ := ih (listenerStep k s)
    obtain ⟨c, hc⟩ := keyOfChar_surjective s.params.uppercaseHexKeys k
    refine ⟨c :: cs, ?_⟩
    rw [listenerSteps_cons, h, hear_cons, hear_one, hc]

@[simp] theorem loopSteps_zero (s : State) : loopSteps 0 s = .next s := rfl

theorem loopSteps_succ {n : Nat} {s u : State} (h : loopStep s = .next u) : loopSteps (n + 1) s = loopSteps n u := by
  simp only [loopSteps, h]

end Sys2Proof.Machine
end

