-- ==== Sys2Proof/Laws/Compositor.lean ====
section
/-! SUPPORT. The compositor, pixel by pixel: what one pixel write, one sprite row and a whole sprite do
(45_display.md R232 to R235). -/

namespace Sys2Proof.Machine

/-- A pixel read after a pixel write. -/
@[simp] theorem Framebuffer.pixel_setPixel (f : Framebuffer) (px qx : Fin 64) (py qy : Fin 32) (p : Bool) :
    (f.setPixel px py p).pixel qx qy = if qx = px ∧ qy = py then p else f.pixel qx qy := by
  simp only [Framebuffer.pixel, Framebuffer.setPixel, Vector.getElem_set, Fin.ext_iff]
  by_cases hy : qy.val = py.val
  · by_cases hx : qx.val = px.val
    · simp [hx, hy]
    · simp [hx, hy, Ne.symm hx]
  · simp [hy, Ne.symm hy]

/-- Framebuffers with the same pixels are the same. -/
theorem Framebuffer.ext_pixel (f g : Framebuffer) (h : ∀ x y, f.pixel x y = g.pixel x y) : f = g := by
  obtain ⟨f⟩ := f
  obtain ⟨g⟩ := g
  congr
  refine Vector.ext fun y hy => Vector.ext fun x hx => ?_
  exact h ⟨x, hx⟩ ⟨y, hy⟩

@[simp] theorem pixel_fbClear (x : Fin 64) (y : Fin 32) : fbClear.pixel x y = false := by
  simp [fbClear, Framebuffer.pixel]

@[simp] theorem drawPixel_pixel (px qx : Fin 64) (py qy : Fin 32) (bit : Bool) (d : DrawState) :
    (drawPixel px py bit d).fb.pixel qx qy =
      if qx = px ∧ qy = py then d.fb.pixel px py ^^ bit else d.fb.pixel qx qy := by
  simp [drawPixel]

@[simp] theorem drawPixel_collision (px : Fin 64) (py : Fin 32) (bit : Bool) (d : DrawState) :
    (drawPixel px py bit d).collision = (d.collision || (bit && d.fb.pixel px py)) := rfl

theorem targetX_val (x : Byte) (c : Nat) : (targetX x c).val = (x.toNat + c) % 64 := rfl

theorem targetY_val (y : Byte) (r : Nat) : (targetY y r).val = (y.toNat + r) % 32 := rfl

/-- The 8 columns of a row are distinct (R235). -/
theorem targetX_inj (x : Byte) (c c' : Nat) (hc : c < 8) (hc' : c' < 8) (h : targetX x c = targetX x c') :
    c = c' := by
  have := congrArg Fin.val h
  simp only [targetX_val] at this
  omega

/-- The rows of a sprite of at most 32 rows are distinct (R235). -/
theorem targetY_inj (y : Byte) (r r' : Nat) (hr : r < 32) (hr' : r' < 32) (h : targetY y r = targetY y r') :
    r = r' := by
  have := congrArg Fin.val h
  simp only [targetY_val] at this
  omega

/-- Columns in another row, and columns the loop does not reach, keep their pixels. -/
theorem drawColumns_pixel_other (x : Byte) (py : Fin 32) (row : Byte) (n c : Nat) (d : DrawState)
    (qx : Fin 64) (qy : Fin 32) (h : qy = py → ∀ k, c ≤ k → k < c + n → qx ≠ targetX x k) :
    (drawColumns x py row c d n).fb.pixel qx qy = d.fb.pixel qx qy := by
  induction n generalizing c d with
  | zero => rfl
  | succ n ih =>
    rw [drawColumns, ih _ _ (fun hy k h1 h2 => h hy k (by omega) (by omega)), drawPixel_pixel, if_neg]
    rintro ⟨hx, hy⟩
    exact h hy c (by omega) (by omega) hx

/-- A column the loop reaches has its pixel changed by the sprite's bit, once. -/
theorem drawColumns_pixel_target (x : Byte) (py : Fin 32) (row : Byte) (n c : Nat) (d : DrawState)
    (k : Nat) (h1 : c ≤ k) (h2 : k < c + n) (h8 : c + n ≤ 8) :
    (drawColumns x py row c d n).fb.pixel (targetX x k) py =
      (d.fb.pixel (targetX x k) py ^^ spriteBit row k) := by
  induction n generalizing c d with
  | zero => omega
  | succ n ih =>
    rw [drawColumns]
    by_cases hk : k = c
    · subst hk
      rw [drawColumns_pixel_other, drawPixel_pixel, if_pos ⟨rfl, rfl⟩]
      intro _ j hj1 hj2 he
      have := targetX_inj x k j (by omega) (by omega) he
      omega
    · rw [ih (c + 1) _ (by omega) (by omega) (by omega), drawPixel_pixel, if_neg]
      rintro ⟨he, -⟩
      exact hk (targetX_inj x k c (by omega) (by omega) he)

/-- The collision of a row: what it was, or a lit pixel under a 1 bit of the row. -/
theorem drawColumns_collision (x : Byte) (py : Fin 32) (row : Byte) (n c : Nat) (d : DrawState) (h8 : c + n ≤ 8) :
    (drawColumns x py row c d n).collision = true ↔
      d.collision = true ∨
        ∃ k, c ≤ k ∧ k < c + n ∧ spriteBit row k = true ∧ d.fb.pixel (targetX x k) py = true := by
  induction n generalizing c d with
  | zero => simp [drawColumns]; intros; omega
  | succ n ih =>
    rw [drawColumns, ih _ _ (by omega)]
    simp only [drawPixel_collision, drawPixel_pixel, Bool.or_eq_true, Bool.and_eq_true]
    constructor
    · rintro ((h | ⟨hb, hp⟩) | ⟨k, h1, h2, hb, hp⟩)
      · exact .inl h
      · exact .inr ⟨c, by omega, by omega, hb, hp⟩
      · refine .inr ⟨k, by omega, by omega, hb, ?_⟩
        rwa [if_neg] at hp
        rintro ⟨he, -⟩
        have := targetX_inj x k c (by omega) (by omega) he
        omega
    · rintro (h | ⟨k, h1, h2, hb, hp⟩)
      · exact .inl (.inl h)
      · by_cases hk : k = c
        · subst hk; exact .inl (.inr ⟨hb, hp⟩)
        · refine .inr ⟨k, by omega, by omega, hb, ?_⟩
          rwa [if_neg]
          rintro ⟨he, -⟩
          exact hk (targetX_inj x k c (by omega) (by omega) he)

/-- The bit of a sprite column as a bit of the byte. -/
theorem spriteBit_eq (row : Byte) (c : Nat) : spriteBit row c = row.getLsbD (7 - c) := by
  simp [spriteBit, BitVec.getLsbD, Nat.testBit, Nat.shiftRight_eq_div_pow]

/-- Pixels outside a sprite's targets keep their value. -/
theorem drawRows_pixel_other (x y : Byte) (sp : List Byte) (r : Nat) (d : DrawState) (qx : Fin 64) (qy : Fin 32)
    (h : ∀ k c, k < sp.length → c < 8 → ¬ (qx = targetX x c ∧ qy = targetY y (r + k))) :
    (drawRows x y r d sp).fb.pixel qx qy = d.fb.pixel qx qy := by
  induction sp generalizing r d with
  | nil => rfl
  | cons row rest ih =>
    rw [drawRows, ih]
    · apply drawColumns_pixel_other
      intro hy k _ hk he
      exact h 0 k (by simp) (by omega) ⟨he, hy⟩
    · intro k c hk hc hh
      exact h (k + 1) c (by simpa using hk) hc (by rwa [show r + (k + 1) = r + 1 + k by omega])

/-- Each target of a sprite of at most 32 rows has its pixel changed by its bit, once (R235). -/
theorem drawRows_pixel_target (x y : Byte) (sp : List Byte) (r : Nat) (d : DrawState) (k c : Nat) (row : Byte)
    (hl : r + sp.length ≤ 32) (hk : sp[k]? = some row) (hc : c < 8) :
    (drawRows x y r d sp).fb.pixel (targetX x c) (targetY y (r + k)) =
      (d.fb.pixel (targetX x c) (targetY y (r + k)) ^^ spriteBit row c) := by
  induction sp generalizing r d k with
  | nil => simp at hk
  | cons row0 rest ih =>
    simp only [List.length_cons] at hl
    rw [drawRows]
    cases k with
    | zero =>
      simp at hk; subst hk
      rw [drawRows_pixel_other, Nat.add_zero, drawColumns_pixel_target _ _ _ _ _ _ _ (by omega) (by omega) (by omega)]
      rintro k c' hk hc' ⟨-, he⟩
      have := targetY_inj y (r + 0) (r + 1 + k) (by omega) (by omega) he
      omega
    | succ k =>
      have hk' : rest[k]? = some row := by simpa using hk
      have hlt : k < rest.length := by
        rw [List.getElem?_eq_some_iff] at hk'; exact hk'.1
      have := ih (r + 1) (drawColumns x (targetY y r) row0 0 d 8) k (by omega) hk'
      rw [show r + (k + 1) = r + 1 + k by omega, this, drawColumns_pixel_other]
      intro he
      have := targetY_inj y (r + 1 + k) r (by omega) (by omega) he
      omega

/-- The collision of a sprite: what it was, or a lit pixel of the framebuffer before the draw under a 1 bit. -/
theorem drawRows_collision (x y : Byte) (sp : List Byte) (r : Nat) (d : DrawState) (hl : r + sp.length ≤ 32) :
    (drawRows x y r d sp).collision = true ↔
      d.collision = true ∨ ∃ k c row, sp[k]? = some row ∧ c < 8 ∧ spriteBit row c = true ∧
        d.fb.pixel (targetX x c) (targetY y (r + k)) = true := by
  induction sp generalizing r d with
  | nil => simp [drawRows]
  | cons row0 rest ih =>
    simp only [List.length_cons] at hl
    rw [drawRows, ih _ _ (by omega), drawColumns_collision _ _ _ _ _ _ (by omega)]
    constructor
    · rintro ((h | ⟨c, -, hc, hb, hp⟩) | ⟨k, c, row, hk, hc, hb, hp⟩)
      · exact .inl h
      · exact .inr ⟨0, c, row0, by simp, by omega, hb, hp⟩
      · have hlt : k < rest.length := by rw [List.getElem?_eq_some_iff] at hk; exact hk.1
        refine .inr ⟨k + 1, c, row, by simpa using hk, hc, hb, ?_⟩
        rw [drawColumns_pixel_other] at hp
        · rwa [show r + (k + 1) = r + 1 + k by omega]
        · intro he; have := targetY_inj y (r + 1 + k) r (by omega) (by omega) he; omega
    · rintro (h | ⟨k, c, row, hk, hc, hb, hp⟩)
      · exact .inl (.inl h)
      · cases k with
        | zero => simp at hk; subst hk; exact .inl (.inr ⟨c, by omega, by omega, hb, hp⟩)
        | succ k =>
          have hk' : rest[k]? = some row := by simpa using hk
          have hlt : k < rest.length := by rw [List.getElem?_eq_some_iff] at hk'; exact hk'.1
          refine .inr ⟨k, c, row, hk', hc, hb, ?_⟩
          rw [drawColumns_pixel_other]
          · rwa [show r + (k + 1) = r + 1 + k by omega] at hp
          · intro he; have := targetY_inj y (r + 1 + k) r (by omega) (by omega) he; omega

end Sys2Proof.Machine
end

