-- ==== Sys2Proof/Laws/Decode.lean ====
section
/-! SUPPORT. Nibbles, fields and bytes of an instruction word (00_scope.md R7, 30_encoding.md R71, R72). -/

namespace Sys2Proof

/-! ## Fields and their nibbles -/

@[simp] theorem regOf_nibbleOf (x : Reg) : regOf (nibbleOf x) = x := by
  have := x.isLt
  simp only [regOf, nibbleOf, Fin.ext_iff, BitVec.toNat_ofNat]
  omega

@[simp] theorem nibbleOf_regOf (n : Nibble) : nibbleOf (regOf n) = n := by
  simp [regOf, nibbleOf]

@[simp] theorem regOf_val (n : Nibble) : (regOf n).val = n.toNat := rfl

theorem immOf_toNat (c d : Nibble) : (immOf c d).toNat = c.toNat * 16 + d.toNat := by
  have := c.isLt; have := d.isLt
  simp only [immOf, BitVec.toNat_ofNat]
  omega

theorem addrOf_toNat (b c d : Nibble) : (addrOf b c d).toNat = b.toNat * 256 + c.toNat * 16 + d.toNat := by
  have := b.isLt; have := c.isLt; have := d.isLt
  simp only [addrOf, BitVec.toNat_ofNat]
  omega

theorem wordOfNibbles_toNat (a b c d : Nibble) :
    (wordOfNibbles a b c d).toNat = a.toNat * 4096 + b.toNat * 256 + c.toNat * 16 + d.toNat := by
  have := a.isLt; have := b.isLt; have := c.isLt; have := d.isLt
  simp only [wordOfNibbles, BitVec.toNat_ofNat]
  omega

/-! ## The nibbles of a word -/

theorem nibbleA_toNat (w : Word) : (nibbleA w).toNat = w.toNat / 4096 := by
  have := w.isLt
  simp only [nibbleA, BitVec.toNat_ofNat]
  omega

theorem nibbleB_toNat (w : Word) : (nibbleB w).toNat = w.toNat / 256 % 16 := by
  simp only [nibbleB, BitVec.toNat_ofNat]

theorem nibbleC_toNat (w : Word) : (nibbleC w).toNat = w.toNat / 16 % 16 := by
  simp only [nibbleC, BitVec.toNat_ofNat]

theorem nibbleD_toNat (w : Word) : (nibbleD w).toNat = w.toNat % 16 := by
  simp only [nibbleD, BitVec.toNat_ofNat]

/-- A word is its nibbles. -/
@[simp] theorem wordOfNibbles_nibbles (w : Word) :
    wordOfNibbles (nibbleA w) (nibbleB w) (nibbleC w) (nibbleD w) = w := by
  apply BitVec.eq_of_toNat_eq
  rw [wordOfNibbles_toNat, nibbleA_toNat, nibbleB_toNat, nibbleC_toNat, nibbleD_toNat]
  omega

@[simp] theorem nibbleA_wordOfNibbles (a b c d : Nibble) : nibbleA (wordOfNibbles a b c d) = a := by
  apply BitVec.eq_of_toNat_eq
  have := a.isLt; have := b.isLt; have := c.isLt; have := d.isLt
  rw [nibbleA_toNat, wordOfNibbles_toNat]
  omega

@[simp] theorem nibbleB_wordOfNibbles (a b c d : Nibble) : nibbleB (wordOfNibbles a b c d) = b := by
  apply BitVec.eq_of_toNat_eq
  have := a.isLt; have := b.isLt; have := c.isLt; have := d.isLt
  rw [nibbleB_toNat, wordOfNibbles_toNat]
  omega

@[simp] theorem nibbleC_wordOfNibbles (a b c d : Nibble) : nibbleC (wordOfNibbles a b c d) = c := by
  apply BitVec.eq_of_toNat_eq
  have := a.isLt; have := b.isLt; have := c.isLt; have := d.isLt
  rw [nibbleC_toNat, wordOfNibbles_toNat]
  omega

@[simp] theorem nibbleD_wordOfNibbles (a b c d : Nibble) : nibbleD (wordOfNibbles a b c d) = d := by
  apply BitVec.eq_of_toNat_eq
  have := a.isLt; have := b.isLt; have := c.isLt; have := d.isLt
  rw [nibbleD_toNat, wordOfNibbles_toNat]
  omega

/-! ## The nibbles of a field -/

/-- NN is its two nibbles. -/
@[simp] theorem immOf_split (nn : Byte) : immOf (immHigh nn) (immLow nn) = nn := by
  have := nn.isLt
  apply BitVec.eq_of_toNat_eq
  rw [immOf_toNat, immHigh, immLow, BitVec.toNat_ofNat, BitVec.toNat_ofNat]
  omega

@[simp] theorem immHigh_immOf (c d : Nibble) : immHigh (immOf c d) = c := by
  have := c.isLt; have := d.isLt
  apply BitVec.eq_of_toNat_eq
  rw [immHigh, BitVec.toNat_ofNat, immOf_toNat]
  omega

@[simp] theorem immLow_immOf (c d : Nibble) : immLow (immOf c d) = d := by
  have := c.isLt; have := d.isLt
  apply BitVec.eq_of_toNat_eq
  rw [immLow, BitVec.toNat_ofNat, immOf_toNat]
  omega

/-- NNN is its three nibbles. -/
@[simp] theorem addrOf_split (a : Addr12) : addrOf (addrHigh a) (addrMid a) (addrLow a) = a := by
  have := a.isLt
  apply BitVec.eq_of_toNat_eq
  rw [addrOf_toNat, addrHigh, addrMid, addrLow, BitVec.toNat_ofNat, BitVec.toNat_ofNat, BitVec.toNat_ofNat]
  omega

@[simp] theorem addrHigh_addrOf (b c d : Nibble) : addrHigh (addrOf b c d) = b := by
  have := b.isLt; have := c.isLt; have := d.isLt
  apply BitVec.eq_of_toNat_eq
  rw [addrHigh, BitVec.toNat_ofNat, addrOf_toNat]
  omega

@[simp] theorem addrMid_addrOf (b c d : Nibble) : addrMid (addrOf b c d) = c := by
  have := b.isLt; have := c.isLt; have := d.isLt
  apply BitVec.eq_of_toNat_eq
  rw [addrMid, BitVec.toNat_ofNat, addrOf_toNat]
  omega

@[simp] theorem addrLow_addrOf (b c d : Nibble) : addrLow (addrOf b c d) = d := by
  have := b.isLt; have := c.isLt; have := d.isLt
  apply BitVec.eq_of_toNat_eq
  rw [addrLow, BitVec.toNat_ofNat, addrOf_toNat]
  omega

/-! ## The bytes of a word -/

/-- The two bytes of a word, put together again (R56). -/
@[simp] theorem wordOfBytes_bytes (w : Word) : wordOfBytes (highByte w) (lowByte w) = w := by
  have := w.isLt
  apply BitVec.eq_of_toNat_eq
  simp only [wordOfBytes, highByte, lowByte, BitVec.toNat_ofNat]
  omega

theorem wordOfBytes_toNat (hi lo : Byte) : (wordOfBytes hi lo).toNat = hi.toNat * 256 + lo.toNat := by
  have := hi.isLt; have := lo.isLt
  simp only [wordOfBytes, BitVec.toNat_ofNat]
  omega

@[simp] theorem highByte_wordOfBytes (hi lo : Byte) : highByte (wordOfBytes hi lo) = hi := by
  have := hi.isLt; have := lo.isLt
  apply BitVec.eq_of_toNat_eq
  simp only [highByte, wordOfBytes_toNat, BitVec.toNat_ofNat]
  omega

@[simp] theorem lowByte_wordOfBytes (hi lo : Byte) : lowByte (wordOfBytes hi lo) = lo := by
  have := hi.isLt; have := lo.isLt
  apply BitVec.eq_of_toNat_eq
  simp only [lowByte, wordOfBytes_toNat, BitVec.toNat_ofNat]
  omega

/-- The decoder, where the nibbles match a row (R73). -/
theorem decode_of_some {a b c d : Nibble} {i : Instr} (h : decodeNibbles a b c d = some i) :
    decode (wordOfNibbles a b c d) = .instr i := by
  simp [decode, h]

/-- The decoder finds an instruction exactly where the word's nibbles match a row (R73). -/
theorem decode_eq_instr (w : Word) (i : Instr) :
    decode w = .instr i ↔ decodeNibbles (nibbleA w) (nibbleB w) (nibbleC w) (nibbleD w) = some i := by
  unfold decode
  split <;> simp_all

theorem decode_eq_error (w w' : Word) (h : decode w = .error w') : w' = w := by
  unfold decode at h
  split at h
  · cases h
  · exact (DecodeResult.error.inj h).symm

end Sys2Proof
end

