-- ==== Sys2Proof/Laws/Memory.lean ====
section
/-! SUPPORT. Memory: a read after a write, and every memory operation keeps the canonical form (20_memory.md R53,
R54, R61). -/

namespace Sys2Proof.Machine

/-! ## One byte -/

theorem findCell_entry_append (a : Nat) (b : Byte) (l : List Host.Cell) (c : Nat) (h : a ≠ c) :
    findCell (entry a b ++ l) c = findCell l c := by
  unfold entry
  split
  · rfl
  · simp [findCell, h]

theorem findCell_none_of_lt (l : List Host.Cell) (a : Nat) (h : ∀ c ∈ l, a < c.1) : findCell l a = none := by
  induction l with
  | nil => rfl
  | cons c rest ih =>
    have hc := h c (by simp)
    have hne : c.1 ≠ a := by omega
    simp [findCell, hne, ih (fun d hd => h d (by simp [hd]))]

/-- The written address reads as the written byte, in a list that rises. -/
theorem findCell_putCell_same (a : Nat) (b : Byte) (l : List Host.Cell)
    (hl : l.Pairwise (fun c d => c.1 < d.1)) :
    (findCell (putCell a b l) a).getD (background a) = b := by
  induction l with
  | nil =>
    simp only [putCell, entry]
    split <;> simp_all [findCell]
  | cons c rest ih =>
    obtain ⟨hc, hrest⟩ := List.pairwise_cons.1 hl
    simp only [putCell]
    split
    · rename_i h
      have hn : findCell (c :: rest) a = none := by
        apply findCell_none_of_lt
        intro d hd
        rcases List.mem_cons.1 hd with rfl | hd
        · exact h
        · have := hc d hd; omega
      unfold entry
      split
      · simp_all
      · simp [findCell]
    · split
      · rename_i h1 h2
        have hn : findCell rest a = none := findCell_none_of_lt _ _ (fun d hd => h2 ▸ hc d hd)
        unfold entry
        split
        · simp_all
        · simp [findCell]
      · rename_i h1 h2
        have hne : c.1 ≠ a := fun h => h2 h.symm
        simp [findCell, hne, ih hrest]

theorem findCell_putCell_other (a : Nat) (b : Byte) (l : List Host.Cell) (c : Nat) (h : a ≠ c) :
    findCell (putCell a b l) c = findCell l c := by
  induction l with
  | nil => simpa [putCell] using findCell_entry_append a b [] c h
  | cons d rest ih =>
    simp only [putCell]
    split
    · exact findCell_entry_append a b _ c h
    · split
      · rename_i h1 h2
        rw [findCell_entry_append a b _ c h]
        have hne : d.1 ≠ c := fun e => h (h2.trans e)
        simp [findCell, hne]
      · simp [findCell, ih]

/-- A read after a write, where the memory is in canonical form. -/
theorem Memory.read_write (m : Memory) (hm : m.wf) (a : Nat) (b : Byte) (c : Nat) :
    (m.write a b).read c = if c = a then b else m.read c := by
  by_cases h : c = a
  · subst h
    simpa [Memory.read, Memory.write] using findCell_putCell_same c b m.cells hm.1
  · simp [Memory.read, Memory.write, h, findCell_putCell_other a b m.cells c (Ne.symm h)]

/-- A write leaves every other address alone, in any memory. -/
theorem Memory.read_write_other (m : Memory) (a : Nat) (b : Byte) (c : Nat) (h : c ≠ a) :
    (m.write a b).read c = m.read c := by
  simp [Memory.read, Memory.write, findCell_putCell_other a b m.cells c (Ne.symm h)]

theorem mem_entry (a : Nat) (b : Byte) (c : Host.Cell) (h : c ∈ entry a b) :
    c = (a, b) ∧ b ≠ background a := by
  unfold entry at h
  split at h <;> simp_all

theorem mem_putCell (a : Nat) (b : Byte) (l : List Host.Cell) (c : Host.Cell) (h : c ∈ putCell a b l) :
    (c = (a, b) ∧ b ≠ background a) ∨ c ∈ l := by
  induction l with
  | nil => exact .inl (mem_entry a b c h)
  | cons d rest ih =>
    simp only [putCell] at h
    split at h
    · rcases List.mem_append.1 h with h | h
      · exact .inl (mem_entry a b c h)
      · exact .inr h
    · split at h
      · rcases List.mem_append.1 h with h | h
        · exact .inl (mem_entry a b c h)
        · exact .inr (List.mem_cons_of_mem _ h)
      · rcases List.mem_cons.1 h with rfl | h
        · exact .inr (by simp)
        · rcases ih h with h | h
          · exact .inl h
          · exact .inr (List.mem_cons_of_mem _ h)

theorem pairwise_entry_append (a : Nat) (b : Byte) (l : List Host.Cell)
    (hl : l.Pairwise (fun c d => c.1 < d.1)) (h : ∀ c ∈ l, a < c.1) :
    (entry a b ++ l).Pairwise (fun c d => c.1 < d.1) := by
  unfold entry
  split
  · exact hl
  · exact List.pairwise_cons.2 ⟨h, hl⟩

theorem pairwise_putCell (a : Nat) (b : Byte) (l : List Host.Cell)
    (hl : l.Pairwise (fun c d => c.1 < d.1)) : (putCell a b l).Pairwise (fun c d => c.1 < d.1) := by
  induction l with
  | nil => simpa [putCell] using pairwise_entry_append a b [] .nil (by simp)
  | cons c rest ih =>
    obtain ⟨hc, hrest⟩ := List.pairwise_cons.1 hl
    simp only [putCell]
    split
    · rename_i h
      refine pairwise_entry_append a b _ hl fun d hd => ?_
      rcases List.mem_cons.1 hd with rfl | hd
      · exact h
      · have := hc d hd; omega
    · split
      · rename_i h1 h2
        exact pairwise_entry_append a b _ hrest fun d hd => h2 ▸ hc d hd
      · rename_i h1 h2
        refine List.pairwise_cons.2 ⟨fun d hd => ?_, ih hrest⟩
        rcases mem_putCell a b rest d hd with ⟨rfl, -⟩ | hd
        · simp only; omega
        · exact hc d hd

/-- A write to an address that exists keeps the canonical form. -/
theorem Memory.wf_write (m : Memory) (hm : m.wf) (a : Nat) (ha : a ≤ 4095) (b : Byte) : (m.write a b).wf := by
  refine ⟨pairwise_putCell a b m.cells hm.1, fun c hc => ?_⟩
  rcases mem_putCell a b m.cells c hc with ⟨rfl, hb⟩ | hc
  · exact ⟨ha, hb⟩
  · exact hm.2 c hc

/-! ## Blocks -/

/-- A write of existing addresses keeps the canonical form. -/
theorem Memory.wf_writeBlock (bs : List Byte) (m : Memory) (hm : m.wf) (a : Nat) (ha : a + bs.length ≤ 4096) :
    (m.writeBlock a bs).wf := by
  induction bs generalizing m a with
  | nil => exact hm
  | cons b bs ih =>
    simp only [List.length_cons] at ha
    exact ih _ (Memory.wf_write m hm a (by omega) b) _ (by omega)

/-- A block write leaves every address outside the block alone, in any memory. -/
theorem Memory.read_writeBlock_outside (bs : List Byte) (m : Memory) (a c : Nat)
    (h : c < a ∨ a + bs.length ≤ c) : (m.writeBlock a bs).read c = m.read c := by
  induction bs generalizing m a with
  | nil => rfl
  | cons b bs ih =>
    simp only [List.length_cons] at h
    rw [Memory.writeBlock, ih _ _ (by omega), Memory.read_write_other _ _ _ _ (by omega)]

/-- The canonical form of the list, without the bound on addresses, is what reads depend on. -/
theorem pairwise_writeBlock (bs : List Byte) (m : Memory) (a : Nat)
    (hm : m.cells.Pairwise (fun c d => c.1 < d.1)) :
    (m.writeBlock a bs).cells.Pairwise (fun c d => c.1 < d.1) := by
  induction bs generalizing m a with
  | nil => exact hm
  | cons b bs ih => exact ih _ _ (pairwise_putCell a b m.cells hm)

theorem Memory.read_write_self (m : Memory) (hm : m.cells.Pairwise (fun c d => c.1 < d.1)) (a : Nat) (b : Byte) :
    (m.write a b).read a = b := by
  simpa [Memory.read, Memory.write] using findCell_putCell_same a b m.cells hm

/-- Byte `i` of a written block reads as byte `i` of the list. -/
theorem Memory.read_writeBlock_inside (bs : List Byte) (m : Memory)
    (hm : m.cells.Pairwise (fun c d => c.1 < d.1)) (a i : Nat) (hi : i < bs.length) :
    (m.writeBlock a bs).read (a + i) = bs[i] := by
  induction bs generalizing m a i with
  | nil => simp at hi
  | cons b bs ih =>
    rw [Memory.writeBlock]
    cases i with
    | zero =>
      rw [Memory.read_writeBlock_outside _ _ _ _ (by omega)]
      simpa using Memory.read_write_self m hm a b
    | succ i =>
      have := ih (m.write a b) (pairwise_putCell a b m.cells hm) (a + 1) i (by simpa using hi)
      rw [show a + (i + 1) = a + 1 + i by omega, this]
      simp

@[simp] theorem Memory.length_readBlock (m : Memory) (a n : Nat) : (m.readBlock a n).length = n := by
  induction n generalizing a with
  | zero => rfl
  | succ n ih => simp [Memory.readBlock, ih]

theorem Memory.getElem_readBlock (m : Memory) (a n i : Nat) (hi : i < (m.readBlock a n).length) :
    (m.readBlock a n)[i] = m.read (a + i) := by
  induction n generalizing a i with
  | zero => simp [Memory.readBlock] at hi
  | succ n ih =>
    cases i with
    | zero => simp [Memory.readBlock]
    | succ i =>
      simp only [Memory.readBlock, List.getElem_cons_succ]
      rw [ih]
      congr 1
      omega

/-! ## The range check -/

/-- What the range check can answer: a fault exactly where the last byte of a non-empty range lies above 4095, naming
the lowest such address (R55, R304). -/
theorem rangeFault_cases (base n : Nat) :
    (rangeFault base n = some (max base 4096) ∧ 0 < n ∧ 4095 < base + n - 1) ∨
    (rangeFault base n = none ∧ (n = 0 ∨ base + n ≤ 4096)) := by
  unfold rangeFault
  split
  · exact .inl ⟨rfl, by omega, by omega⟩
  · exact .inr ⟨rfl, by omega⟩

theorem rangeFault_none_iff (base n : Nat) : rangeFault base n = none ↔ n = 0 ∨ base + n ≤ 4096 := by
  unfold rangeFault
  split <;> simp <;> omega

theorem rangeFault_eq_some (base n : Nat) (h0 : 0 < n) (h : 4095 < base + n - 1) :
    rangeFault base n = some (max base 4096) := by
  rcases rangeFault_cases base n with ⟨h1, -⟩ | ⟨-, h1⟩
  · exact h1
  · omega

/-! ## The reset image -/

theorem memory_empty_wf : (⟨[]⟩ : Memory).wf := by
  simp [Memory.wf]

@[simp] theorem memory_empty_read (a : Nat) : (⟨[]⟩ : Memory).read a = background a := rfl

theorem background_above_font (a : Nat) (h : 80 ≤ a) : background a = 0#8 := by
  simp [background, Nat.not_lt.2 h]

end Sys2Proof.Machine
end

