-- ==== Sys2Proof/Laws/State.lean ====
section
/-! SUPPORT. One lemma per field per update of the state, each true by rfl, so that no later proof unfolds an update. -/

namespace Sys2Proof.Machine

/-! ## The writes of an instruction -/

section
variable (s : State) (x : Reg) (b : Byte)
@[simp] theorem State.setV_v : (s.setV x b).v = s.v.set x.val b := rfl
@[simp] theorem State.setV_index : (s.setV x b).index = s.index := rfl
@[simp] theorem State.setV_pc : (s.setV x b).pc = s.pc := rfl
@[simp] theorem State.setV_stack : (s.setV x b).stack = s.stack := rfl
@[simp] theorem State.setV_delay : (s.setV x b).delay = s.delay := rfl
@[simp] theorem State.setV_sound : (s.setV x b).sound = s.sound := rfl
@[simp] theorem State.setV_fb : (s.setV x b).fb = s.fb := rfl
@[simp] theorem State.setV_mem : (s.setV x b).mem = s.mem := rfl
@[simp] theorem State.setV_status : (s.setV x b).status = s.status := rfl
@[simp] theorem State.setV_keypad : (s.setV x b).keypad = s.keypad := rfl
@[simp] theorem State.setV_snapshot : (s.setV x b).snapshot = s.snapshot := rfl
@[simp] theorem State.setV_returned : (s.setV x b).returned = s.returned := rfl
@[simp] theorem State.setV_rendered : (s.setV x b).rendered = s.rendered := rfl
@[simp] theorem State.setV_draws : (s.setV x b).draws = s.draws := rfl
@[simp] theorem State.setV_inputs : (s.setV x b).inputs = s.inputs := rfl
@[simp] theorem State.setV_iterations : (s.setV x b).iterations = s.iterations := rfl
@[simp] theorem State.setV_params : (s.setV x b).params = s.params := rfl
end

section
variable (s : State) (w : Vector Byte 16)
@[simp] theorem State.setRegs_v : (s.setRegs w).v = w := rfl
@[simp] theorem State.setRegs_index : (s.setRegs w).index = s.index := rfl
@[simp] theorem State.setRegs_pc : (s.setRegs w).pc = s.pc := rfl
@[simp] theorem State.setRegs_stack : (s.setRegs w).stack = s.stack := rfl
@[simp] theorem State.setRegs_delay : (s.setRegs w).delay = s.delay := rfl
@[simp] theorem State.setRegs_sound : (s.setRegs w).sound = s.sound := rfl
@[simp] theorem State.setRegs_fb : (s.setRegs w).fb = s.fb := rfl
@[simp] theorem State.setRegs_mem : (s.setRegs w).mem = s.mem := rfl
@[simp] theorem State.setRegs_status : (s.setRegs w).status = s.status := rfl
@[simp] theorem State.setRegs_keypad : (s.setRegs w).keypad = s.keypad := rfl
@[simp] theorem State.setRegs_snapshot : (s.setRegs w).snapshot = s.snapshot := rfl
@[simp] theorem State.setRegs_returned : (s.setRegs w).returned = s.returned := rfl
@[simp] theorem State.setRegs_rendered : (s.setRegs w).rendered = s.rendered := rfl
@[simp] theorem State.setRegs_draws : (s.setRegs w).draws = s.draws := rfl
@[simp] theorem State.setRegs_inputs : (s.setRegs w).inputs = s.inputs := rfl
@[simp] theorem State.setRegs_iterations : (s.setRegs w).iterations = s.iterations := rfl
@[simp] theorem State.setRegs_params : (s.setRegs w).params = s.params := rfl
end

section
variable (s : State) (w : Word)
@[simp] theorem State.setIndex_v : (s.setIndex w).v = s.v := rfl
@[simp] theorem State.setIndex_index : (s.setIndex w).index = w := rfl
@[simp] theorem State.setIndex_pc : (s.setIndex w).pc = s.pc := rfl
@[simp] theorem State.setIndex_stack : (s.setIndex w).stack = s.stack := rfl
@[simp] theorem State.setIndex_delay : (s.setIndex w).delay = s.delay := rfl
@[simp] theorem State.setIndex_sound : (s.setIndex w).sound = s.sound := rfl
@[simp] theorem State.setIndex_fb : (s.setIndex w).fb = s.fb := rfl
@[simp] theorem State.setIndex_mem : (s.setIndex w).mem = s.mem := rfl
@[simp] theorem State.setIndex_status : (s.setIndex w).status = s.status := rfl
@[simp] theorem State.setIndex_keypad : (s.setIndex w).keypad = s.keypad := rfl
@[simp] theorem State.setIndex_snapshot : (s.setIndex w).snapshot = s.snapshot := rfl
@[simp] theorem State.setIndex_returned : (s.setIndex w).returned = s.returned := rfl
@[simp] theorem State.setIndex_rendered : (s.setIndex w).rendered = s.rendered := rfl
@[simp] theorem State.setIndex_draws : (s.setIndex w).draws = s.draws := rfl
@[simp] theorem State.setIndex_inputs : (s.setIndex w).inputs = s.inputs := rfl
@[simp] theorem State.setIndex_iterations : (s.setIndex w).iterations = s.iterations := rfl
@[simp] theorem State.setIndex_params : (s.setIndex w).params = s.params := rfl
end

section
variable (s : State) (l : List Word)
@[simp] theorem State.setStack_v : (s.setStack l).v = s.v := rfl
@[simp] theorem State.setStack_index : (s.setStack l).index = s.index := rfl
@[simp] theorem State.setStack_pc : (s.setStack l).pc = s.pc := rfl
@[simp] theorem State.setStack_stack : (s.setStack l).stack = l := rfl
@[simp] theorem State.setStack_delay : (s.setStack l).delay = s.delay := rfl
@[simp] theorem State.setStack_sound : (s.setStack l).sound = s.sound := rfl
@[simp] theorem State.setStack_fb : (s.setStack l).fb = s.fb := rfl
@[simp] theorem State.setStack_mem : (s.setStack l).mem = s.mem := rfl
@[simp] theorem State.setStack_status : (s.setStack l).status = s.status := rfl
@[simp] theorem State.setStack_keypad : (s.setStack l).keypad = s.keypad := rfl
@[simp] theorem State.setStack_snapshot : (s.setStack l).snapshot = s.snapshot := rfl
@[simp] theorem State.setStack_returned : (s.setStack l).returned = s.returned := rfl
@[simp] theorem State.setStack_rendered : (s.setStack l).rendered = s.rendered := rfl
@[simp] theorem State.setStack_draws : (s.setStack l).draws = s.draws := rfl
@[simp] theorem State.setStack_inputs : (s.setStack l).inputs = s.inputs := rfl
@[simp] theorem State.setStack_iterations : (s.setStack l).iterations = s.iterations := rfl
@[simp] theorem State.setStack_params : (s.setStack l).params = s.params := rfl
end

section
variable (s : State) (b : Byte)
@[simp] theorem State.setDelay_v : (s.setDelay b).v = s.v := rfl
@[simp] theorem State.setDelay_index : (s.setDelay b).index = s.index := rfl
@[simp] theorem State.setDelay_pc : (s.setDelay b).pc = s.pc := rfl
@[simp] theorem State.setDelay_stack : (s.setDelay b).stack = s.stack := rfl
@[simp] theorem State.setDelay_delay : (s.setDelay b).delay = b := rfl
@[simp] theorem State.setDelay_sound : (s.setDelay b).sound = s.sound := rfl
@[simp] theorem State.setDelay_fb : (s.setDelay b).fb = s.fb := rfl
@[simp] theorem State.setDelay_mem : (s.setDelay b).mem = s.mem := rfl
@[simp] theorem State.setDelay_status : (s.setDelay b).status = s.status := rfl
@[simp] theorem State.setDelay_keypad : (s.setDelay b).keypad = s.keypad := rfl
@[simp] theorem State.setDelay_snapshot : (s.setDelay b).snapshot = s.snapshot := rfl
@[simp] theorem State.setDelay_returned : (s.setDelay b).returned = s.returned := rfl
@[simp] theorem State.setDelay_rendered : (s.setDelay b).rendered = s.rendered := rfl
@[simp] theorem State.setDelay_draws : (s.setDelay b).draws = s.draws := rfl
@[simp] theorem State.setDelay_inputs : (s.setDelay b).inputs = s.inputs := rfl
@[simp] theorem State.setDelay_iterations : (s.setDelay b).iterations = s.iterations := rfl
@[simp] theorem State.setDelay_params : (s.setDelay b).params = s.params := rfl
end

section
variable (s : State) (b : Byte)
@[simp] theorem State.setSound_v : (s.setSound b).v = s.v := rfl
@[simp] theorem State.setSound_index : (s.setSound b).index = s.index := rfl
@[simp] theorem State.setSound_pc : (s.setSound b).pc = s.pc := rfl
@[simp] theorem State.setSound_stack : (s.setSound b).stack = s.stack := rfl
@[simp] theorem State.setSound_delay : (s.setSound b).delay = s.delay := rfl
@[simp] theorem State.setSound_sound : (s.setSound b).sound = b := rfl
@[simp] theorem State.setSound_fb : (s.setSound b).fb = s.fb := rfl
@[simp] theorem State.setSound_mem : (s.setSound b).mem = s.mem := rfl
@[simp] theorem State.setSound_status : (s.setSound b).status = s.status := rfl
@[simp] theorem State.setSound_keypad : (s.setSound b).keypad = s.keypad := rfl
@[simp] theorem State.setSound_snapshot : (s.setSound b).snapshot = s.snapshot := rfl
@[simp] theorem State.setSound_returned : (s.setSound b).returned = s.returned := rfl
@[simp] theorem State.setSound_rendered : (s.setSound b).rendered = s.rendered := rfl
@[simp] theorem State.setSound_draws : (s.setSound b).draws = s.draws := rfl
@[simp] theorem State.setSound_inputs : (s.setSound b).inputs = s.inputs := rfl
@[simp] theorem State.setSound_iterations : (s.setSound b).iterations = s.iterations := rfl
@[simp] theorem State.setSound_params : (s.setSound b).params = s.params := rfl
end

section
variable (s : State) (f : Framebuffer)
@[simp] theorem State.setFb_v : (s.setFb f).v = s.v := rfl
@[simp] theorem State.setFb_index : (s.setFb f).index = s.index := rfl
@[simp] theorem State.setFb_pc : (s.setFb f).pc = s.pc := rfl
@[simp] theorem State.setFb_stack : (s.setFb f).stack = s.stack := rfl
@[simp] theorem State.setFb_delay : (s.setFb f).delay = s.delay := rfl
@[simp] theorem State.setFb_sound : (s.setFb f).sound = s.sound := rfl
@[simp] theorem State.setFb_fb : (s.setFb f).fb = f := rfl
@[simp] theorem State.setFb_mem : (s.setFb f).mem = s.mem := rfl
@[simp] theorem State.setFb_status : (s.setFb f).status = s.status := rfl
@[simp] theorem State.setFb_keypad : (s.setFb f).keypad = s.keypad := rfl
@[simp] theorem State.setFb_snapshot : (s.setFb f).snapshot = s.snapshot := rfl
@[simp] theorem State.setFb_returned : (s.setFb f).returned = s.returned := rfl
@[simp] theorem State.setFb_rendered : (s.setFb f).rendered = s.rendered := rfl
@[simp] theorem State.setFb_draws : (s.setFb f).draws = s.draws := rfl
@[simp] theorem State.setFb_inputs : (s.setFb f).inputs = s.inputs := rfl
@[simp] theorem State.setFb_iterations : (s.setFb f).iterations = s.iterations := rfl
@[simp] theorem State.setFb_params : (s.setFb f).params = s.params := rfl
end

section
variable (s : State) (m : Memory)
@[simp] theorem State.setMem_v : (s.setMem m).v = s.v := rfl
@[simp] theorem State.setMem_index : (s.setMem m).index = s.index := rfl
@[simp] theorem State.setMem_pc : (s.setMem m).pc = s.pc := rfl
@[simp] theorem State.setMem_stack : (s.setMem m).stack = s.stack := rfl
@[simp] theorem State.setMem_delay : (s.setMem m).delay = s.delay := rfl
@[simp] theorem State.setMem_sound : (s.setMem m).sound = s.sound := rfl
@[simp] theorem State.setMem_fb : (s.setMem m).fb = s.fb := rfl
@[simp] theorem State.setMem_mem : (s.setMem m).mem = m := rfl
@[simp] theorem State.setMem_status : (s.setMem m).status = s.status := rfl
@[simp] theorem State.setMem_keypad : (s.setMem m).keypad = s.keypad := rfl
@[simp] theorem State.setMem_snapshot : (s.setMem m).snapshot = s.snapshot := rfl
@[simp] theorem State.setMem_returned : (s.setMem m).returned = s.returned := rfl
@[simp] theorem State.setMem_rendered : (s.setMem m).rendered = s.rendered := rfl
@[simp] theorem State.setMem_draws : (s.setMem m).draws = s.draws := rfl
@[simp] theorem State.setMem_inputs : (s.setMem m).inputs = s.inputs := rfl
@[simp] theorem State.setMem_iterations : (s.setMem m).iterations = s.iterations := rfl
@[simp] theorem State.setMem_params : (s.setMem m).params = s.params := rfl
end

section
variable (s : State)
@[simp] theorem State.countDraw_v : (s.countDraw).v = s.v := rfl
@[simp] theorem State.countDraw_index : (s.countDraw).index = s.index := rfl
@[simp] theorem State.countDraw_pc : (s.countDraw).pc = s.pc := rfl
@[simp] theorem State.countDraw_stack : (s.countDraw).stack = s.stack := rfl
@[simp] theorem State.countDraw_delay : (s.countDraw).delay = s.delay := rfl
@[simp] theorem State.countDraw_sound : (s.countDraw).sound = s.sound := rfl
@[simp] theorem State.countDraw_fb : (s.countDraw).fb = s.fb := rfl
@[simp] theorem State.countDraw_mem : (s.countDraw).mem = s.mem := rfl
@[simp] theorem State.countDraw_status : (s.countDraw).status = s.status := rfl
@[simp] theorem State.countDraw_keypad : (s.countDraw).keypad = s.keypad := rfl
@[simp] theorem State.countDraw_snapshot : (s.countDraw).snapshot = s.snapshot := rfl
@[simp] theorem State.countDraw_returned : (s.countDraw).returned = s.returned := rfl
@[simp] theorem State.countDraw_rendered : (s.countDraw).rendered = s.rendered := rfl
@[simp] theorem State.countDraw_draws : (s.countDraw).draws = s.draws + 1 := rfl
@[simp] theorem State.countDraw_inputs : (s.countDraw).inputs = s.inputs := rfl
@[simp] theorem State.countDraw_iterations : (s.countDraw).iterations = s.iterations := rfl
@[simp] theorem State.countDraw_params : (s.countDraw).params = s.params := rfl
end

section
variable (s : State) (x : Reg) (b flag : Byte)
@[simp] theorem State.setVFlag_v : (s.setVFlag x b flag).v = (s.v.set x.val b).set 15 flag := rfl
@[simp] theorem State.setVFlag_index : (s.setVFlag x b flag).index = s.index := rfl
@[simp] theorem State.setVFlag_pc : (s.setVFlag x b flag).pc = s.pc := rfl
@[simp] theorem State.setVFlag_stack : (s.setVFlag x b flag).stack = s.stack := rfl
@[simp] theorem State.setVFlag_delay : (s.setVFlag x b flag).delay = s.delay := rfl
@[simp] theorem State.setVFlag_sound : (s.setVFlag x b flag).sound = s.sound := rfl
@[simp] theorem State.setVFlag_fb : (s.setVFlag x b flag).fb = s.fb := rfl
@[simp] theorem State.setVFlag_mem : (s.setVFlag x b flag).mem = s.mem := rfl
@[simp] theorem State.setVFlag_status : (s.setVFlag x b flag).status = s.status := rfl
@[simp] theorem State.setVFlag_keypad : (s.setVFlag x b flag).keypad = s.keypad := rfl
@[simp] theorem State.setVFlag_snapshot : (s.setVFlag x b flag).snapshot = s.snapshot := rfl
@[simp] theorem State.setVFlag_returned : (s.setVFlag x b flag).returned = s.returned := rfl
@[simp] theorem State.setVFlag_rendered : (s.setVFlag x b flag).rendered = s.rendered := rfl
@[simp] theorem State.setVFlag_draws : (s.setVFlag x b flag).draws = s.draws := rfl
@[simp] theorem State.setVFlag_inputs : (s.setVFlag x b flag).inputs = s.inputs := rfl
@[simp] theorem State.setVFlag_iterations : (s.setVFlag x b flag).iterations = s.iterations := rfl
@[simp] theorem State.setVFlag_params : (s.setVFlag x b flag).params = s.params := rfl
end

/-! ## The end of a completed step, for each effect but `Halt`, and the blocked step -/

section
variable (s : State)
@[simp] theorem finish_increment_v : (finish .increment s).v = s.v := rfl
@[simp] theorem finish_increment_index : (finish .increment s).index = s.index := rfl
@[simp] theorem finish_increment_pc : (finish .increment s).pc = s.pc + 2#16 := rfl
@[simp] theorem finish_increment_stack : (finish .increment s).stack = s.stack := rfl
@[simp] theorem finish_increment_delay : (finish .increment s).delay = countDown s.delay := rfl
@[simp] theorem finish_increment_sound : (finish .increment s).sound = countDown s.sound := rfl
@[simp] theorem finish_increment_fb : (finish .increment s).fb = s.fb := rfl
@[simp] theorem finish_increment_mem : (finish .increment s).mem = s.mem := rfl
@[simp] theorem finish_increment_status : (finish .increment s).status = s.status := rfl
@[simp] theorem finish_increment_keypad : (finish .increment s).keypad = s.keypad := rfl
@[simp] theorem finish_increment_snapshot : (finish .increment s).snapshot = s.snapshot := rfl
@[simp] theorem finish_increment_returned : (finish .increment s).returned = some .continued := rfl
@[simp] theorem finish_increment_rendered : (finish .increment s).rendered = s.rendered := rfl
@[simp] theorem finish_increment_draws : (finish .increment s).draws = s.draws := rfl
@[simp] theorem finish_increment_inputs : (finish .increment s).inputs = s.inputs := rfl
@[simp] theorem finish_increment_iterations : (finish .increment s).iterations = s.iterations := rfl
@[simp] theorem finish_increment_params : (finish .increment s).params = s.params := rfl
end

section
variable (p : Bool) (s : State)
@[simp] theorem finish_skip_v : (finish (.skip p) s).v = s.v := rfl
@[simp] theorem finish_skip_index : (finish (.skip p) s).index = s.index := rfl
@[simp] theorem finish_skip_pc : (finish (.skip p) s).pc = newPc (.skip p) s.pc := rfl
@[simp] theorem finish_skip_stack : (finish (.skip p) s).stack = s.stack := rfl
@[simp] theorem finish_skip_delay : (finish (.skip p) s).delay = countDown s.delay := rfl
@[simp] theorem finish_skip_sound : (finish (.skip p) s).sound = countDown s.sound := rfl
@[simp] theorem finish_skip_fb : (finish (.skip p) s).fb = s.fb := rfl
@[simp] theorem finish_skip_mem : (finish (.skip p) s).mem = s.mem := rfl
@[simp] theorem finish_skip_status : (finish (.skip p) s).status = s.status := rfl
@[simp] theorem finish_skip_keypad : (finish (.skip p) s).keypad = s.keypad := rfl
@[simp] theorem finish_skip_snapshot : (finish (.skip p) s).snapshot = s.snapshot := rfl
@[simp] theorem finish_skip_returned : (finish (.skip p) s).returned = some .continued := rfl
@[simp] theorem finish_skip_rendered : (finish (.skip p) s).rendered = s.rendered := rfl
@[simp] theorem finish_skip_draws : (finish (.skip p) s).draws = s.draws := rfl
@[simp] theorem finish_skip_inputs : (finish (.skip p) s).inputs = s.inputs := rfl
@[simp] theorem finish_skip_iterations : (finish (.skip p) s).iterations = s.iterations := rfl
@[simp] theorem finish_skip_params : (finish (.skip p) s).params = s.params := rfl
end

section
variable (t : Word) (s : State)
@[simp] theorem finish_jump_v : (finish (.jump t) s).v = s.v := rfl
@[simp] theorem finish_jump_index : (finish (.jump t) s).index = s.index := rfl
@[simp] theorem finish_jump_pc : (finish (.jump t) s).pc = t := rfl
@[simp] theorem finish_jump_stack : (finish (.jump t) s).stack = s.stack := rfl
@[simp] theorem finish_jump_delay : (finish (.jump t) s).delay = countDown s.delay := rfl
@[simp] theorem finish_jump_sound : (finish (.jump t) s).sound = countDown s.sound := rfl
@[simp] theorem finish_jump_fb : (finish (.jump t) s).fb = s.fb := rfl
@[simp] theorem finish_jump_mem : (finish (.jump t) s).mem = s.mem := rfl
@[simp] theorem finish_jump_status : (finish (.jump t) s).status = s.status := rfl
@[simp] theorem finish_jump_keypad : (finish (.jump t) s).keypad = s.keypad := rfl
@[simp] theorem finish_jump_snapshot : (finish (.jump t) s).snapshot = s.snapshot := rfl
@[simp] theorem finish_jump_returned : (finish (.jump t) s).returned = some .continued := rfl
@[simp] theorem finish_jump_rendered : (finish (.jump t) s).rendered = s.rendered := rfl
@[simp] theorem finish_jump_draws : (finish (.jump t) s).draws = s.draws := rfl
@[simp] theorem finish_jump_inputs : (finish (.jump t) s).inputs = s.inputs := rfl
@[simp] theorem finish_jump_iterations : (finish (.jump t) s).iterations = s.iterations := rfl
@[simp] theorem finish_jump_params : (finish (.jump t) s).params = s.params := rfl
end

section
variable (s : State)
@[simp] theorem finish_halt_v : (finish .halt s).v = s.v := rfl
@[simp] theorem finish_halt_index : (finish .halt s).index = s.index := rfl
@[simp] theorem finish_halt_pc : (finish .halt s).pc = s.pc := rfl
@[simp] theorem finish_halt_stack : (finish .halt s).stack = s.stack := rfl
@[simp] theorem finish_halt_delay : (finish .halt s).delay = s.delay := rfl
@[simp] theorem finish_halt_sound : (finish .halt s).sound = s.sound := rfl
@[simp] theorem finish_halt_fb : (finish .halt s).fb = s.fb := rfl
@[simp] theorem finish_halt_mem : (finish .halt s).mem = s.mem := rfl
@[simp] theorem finish_halt_status : (finish .halt s).status = s.status := rfl
@[simp] theorem finish_halt_keypad : (finish .halt s).keypad = s.keypad := rfl
@[simp] theorem finish_halt_snapshot : (finish .halt s).snapshot = s.snapshot := rfl
@[simp] theorem finish_halt_returned : (finish .halt s).returned = some .blockForIO := rfl
@[simp] theorem finish_halt_rendered : (finish .halt s).rendered = s.rendered := rfl
@[simp] theorem finish_halt_draws : (finish .halt s).draws = s.draws := rfl
@[simp] theorem finish_halt_inputs : (finish .halt s).inputs = s.inputs := rfl
@[simp] theorem finish_halt_iterations : (finish .halt s).iterations = s.iterations := rfl
@[simp] theorem finish_halt_params : (finish .halt s).params = s.params := rfl
end

/-! ## The state after a fault -/

section
variable (k : FaultKind) (s : State)
@[simp] theorem faultState_v : (faultState k s).v = s.v := rfl
@[simp] theorem faultState_index : (faultState k s).index = s.index := rfl
@[simp] theorem faultState_pc : (faultState k s).pc = s.pc := rfl
@[simp] theorem faultState_stack : (faultState k s).stack = s.stack := rfl
@[simp] theorem faultState_delay : (faultState k s).delay = s.delay := rfl
@[simp] theorem faultState_sound : (faultState k s).sound = s.sound := rfl
@[simp] theorem faultState_fb : (faultState k s).fb = s.fb := rfl
@[simp] theorem faultState_mem : (faultState k s).mem = s.mem := rfl
@[simp] theorem faultState_status : (faultState k s).status = .faulted ⟨k, s.pc⟩ := rfl
@[simp] theorem faultState_keypad : (faultState k s).keypad = s.keypad := rfl
@[simp] theorem faultState_snapshot : (faultState k s).snapshot = s.snapshot := rfl
@[simp] theorem faultState_returned : (faultState k s).returned = some (.fault ⟨k, s.pc⟩) := rfl
@[simp] theorem faultState_rendered : (faultState k s).rendered = s.rendered := rfl
@[simp] theorem faultState_draws : (faultState k s).draws = s.draws := rfl
@[simp] theorem faultState_inputs : (faultState k s).inputs = s.inputs := rfl
@[simp] theorem faultState_iterations : (faultState k s).iterations = s.iterations := rfl
@[simp] theorem faultState_params : (faultState k s).params = s.params := rfl
end

/-! ## The start of an iteration -/

section
variable (s : State)
@[simp] theorem beginIteration_v : (beginIteration s).v = s.v := rfl
@[simp] theorem beginIteration_index : (beginIteration s).index = s.index := rfl
@[simp] theorem beginIteration_pc : (beginIteration s).pc = s.pc := rfl
@[simp] theorem beginIteration_stack : (beginIteration s).stack = s.stack := rfl
@[simp] theorem beginIteration_delay : (beginIteration s).delay = s.delay := rfl
@[simp] theorem beginIteration_sound : (beginIteration s).sound = s.sound := rfl
@[simp] theorem beginIteration_fb : (beginIteration s).fb = s.fb := rfl
@[simp] theorem beginIteration_mem : (beginIteration s).mem = s.mem := rfl
@[simp] theorem beginIteration_status : (beginIteration s).status = s.status := rfl
@[simp] theorem beginIteration_keypad : (beginIteration s).keypad =
    listenAll s.params.uppercaseHexKeys s.keypad (currentInput s).before := rfl
@[simp] theorem beginIteration_snapshot : (beginIteration s).snapshot =
    listenAll s.params.uppercaseHexKeys s.keypad (currentInput s).before := rfl
@[simp] theorem beginIteration_returned : (beginIteration s).returned = s.returned := rfl
@[simp] theorem beginIteration_rendered : (beginIteration s).rendered = s.rendered := rfl
@[simp] theorem beginIteration_draws : (beginIteration s).draws = s.draws := rfl
@[simp] theorem beginIteration_inputs : (beginIteration s).inputs = s.inputs := rfl
@[simp] theorem beginIteration_iterations : (beginIteration s).iterations = s.iterations := rfl
@[simp] theorem beginIteration_params : (beginIteration s).params = s.params := rfl
end

/-! ## A step of the listener -/

section
variable (k : Fin 16) (s : State)
@[simp] theorem listenerStep_v : (listenerStep k s).v = s.v := rfl
@[simp] theorem listenerStep_index : (listenerStep k s).index = s.index := rfl
@[simp] theorem listenerStep_pc : (listenerStep k s).pc = s.pc := rfl
@[simp] theorem listenerStep_stack : (listenerStep k s).stack = s.stack := rfl
@[simp] theorem listenerStep_delay : (listenerStep k s).delay = s.delay := rfl
@[simp] theorem listenerStep_sound : (listenerStep k s).sound = s.sound := rfl
@[simp] theorem listenerStep_fb : (listenerStep k s).fb = s.fb := rfl
@[simp] theorem listenerStep_mem : (listenerStep k s).mem = s.mem := rfl
@[simp] theorem listenerStep_status : (listenerStep k s).status = s.status := rfl
@[simp] theorem listenerStep_keypad : (listenerStep k s).keypad = toggle s.keypad k := rfl
@[simp] theorem listenerStep_snapshot : (listenerStep k s).snapshot = s.snapshot := rfl
@[simp] theorem listenerStep_returned : (listenerStep k s).returned = s.returned := rfl
@[simp] theorem listenerStep_rendered : (listenerStep k s).rendered = s.rendered := rfl
@[simp] theorem listenerStep_draws : (listenerStep k s).draws = s.draws := rfl
@[simp] theorem listenerStep_inputs : (listenerStep k s).inputs = s.inputs := rfl
@[simp] theorem listenerStep_iterations : (listenerStep k s).iterations = s.iterations := rfl
@[simp] theorem listenerStep_params : (listenerStep k s).params = s.params := rfl
end

/-! ## The listener hears key characters -/

section
variable (cs : List Char) (s : State)
@[simp] theorem hear_v : (hear cs s).v = s.v := rfl
@[simp] theorem hear_index : (hear cs s).index = s.index := rfl
@[simp] theorem hear_pc : (hear cs s).pc = s.pc := rfl
@[simp] theorem hear_stack : (hear cs s).stack = s.stack := rfl
@[simp] theorem hear_delay : (hear cs s).delay = s.delay := rfl
@[simp] theorem hear_sound : (hear cs s).sound = s.sound := rfl
@[simp] theorem hear_fb : (hear cs s).fb = s.fb := rfl
@[simp] theorem hear_mem : (hear cs s).mem = s.mem := rfl
@[simp] theorem hear_status : (hear cs s).status = s.status := rfl
@[simp] theorem hear_keypad : (hear cs s).keypad = listenAll s.params.uppercaseHexKeys s.keypad cs := rfl
@[simp] theorem hear_snapshot : (hear cs s).snapshot = s.snapshot := rfl
@[simp] theorem hear_returned : (hear cs s).returned = s.returned := rfl
@[simp] theorem hear_rendered : (hear cs s).rendered = s.rendered := rfl
@[simp] theorem hear_draws : (hear cs s).draws = s.draws := rfl
@[simp] theorem hear_inputs : (hear cs s).inputs = s.inputs := rfl
@[simp] theorem hear_iterations : (hear cs s).iterations = s.iterations := rfl
@[simp] theorem hear_params : (hear cs s).params = s.params := rfl
end

/-! ## The snapshot -/

section
variable (s : State)
@[simp] theorem takeSnapshot_v : (takeSnapshot s).v = s.v := rfl
@[simp] theorem takeSnapshot_index : (takeSnapshot s).index = s.index := rfl
@[simp] theorem takeSnapshot_pc : (takeSnapshot s).pc = s.pc := rfl
@[simp] theorem takeSnapshot_stack : (takeSnapshot s).stack = s.stack := rfl
@[simp] theorem takeSnapshot_delay : (takeSnapshot s).delay = s.delay := rfl
@[simp] theorem takeSnapshot_sound : (takeSnapshot s).sound = s.sound := rfl
@[simp] theorem takeSnapshot_fb : (takeSnapshot s).fb = s.fb := rfl
@[simp] theorem takeSnapshot_mem : (takeSnapshot s).mem = s.mem := rfl
@[simp] theorem takeSnapshot_status : (takeSnapshot s).status = s.status := rfl
@[simp] theorem takeSnapshot_keypad : (takeSnapshot s).keypad = s.keypad := rfl
@[simp] theorem takeSnapshot_snapshot : (takeSnapshot s).snapshot = s.keypad := rfl
@[simp] theorem takeSnapshot_returned : (takeSnapshot s).returned = s.returned := rfl
@[simp] theorem takeSnapshot_rendered : (takeSnapshot s).rendered = s.rendered := rfl
@[simp] theorem takeSnapshot_draws : (takeSnapshot s).draws = s.draws := rfl
@[simp] theorem takeSnapshot_inputs : (takeSnapshot s).inputs = s.inputs := rfl
@[simp] theorem takeSnapshot_iterations : (takeSnapshot s).iterations = s.iterations := rfl
@[simp] theorem takeSnapshot_params : (takeSnapshot s).params = s.params := rfl
end

/-! ## The next key characters -/

section
variable (s : State)
@[simp] theorem nextInput_v : (nextInput s).v = s.v := rfl
@[simp] theorem nextInput_index : (nextInput s).index = s.index := rfl
@[simp] theorem nextInput_pc : (nextInput s).pc = s.pc := rfl
@[simp] theorem nextInput_stack : (nextInput s).stack = s.stack := rfl
@[simp] theorem nextInput_delay : (nextInput s).delay = s.delay := rfl
@[simp] theorem nextInput_sound : (nextInput s).sound = s.sound := rfl
@[simp] theorem nextInput_fb : (nextInput s).fb = s.fb := rfl
@[simp] theorem nextInput_mem : (nextInput s).mem = s.mem := rfl
@[simp] theorem nextInput_status : (nextInput s).status = s.status := rfl
@[simp] theorem nextInput_keypad : (nextInput s).keypad = s.keypad := rfl
@[simp] theorem nextInput_snapshot : (nextInput s).snapshot = s.snapshot := rfl
@[simp] theorem nextInput_returned : (nextInput s).returned = s.returned := rfl
@[simp] theorem nextInput_rendered : (nextInput s).rendered = s.rendered := rfl
@[simp] theorem nextInput_draws : (nextInput s).draws = s.draws := rfl
@[simp] theorem nextInput_inputs : (nextInput s).inputs = s.inputs.tail := rfl
@[simp] theorem nextInput_iterations : (nextInput s).iterations = s.iterations + 1 := rfl
@[simp] theorem nextInput_params : (nextInput s).params = s.params := rfl
end

end Sys2Proof.Machine
end

