-- ==== Sys2Proof/Laws/Registers.lean ====
section
/-! SUPPORT. Registers, the stack, and the results and flags of the arithmetic, each said once. -/

namespace Sys2Proof.Machine

/-! ## Reading a register after a write -/

@[simp] theorem State.getV_setV (s : State) (x r : Reg) (b : Byte) :
    (s.setV x b).getV r = if r = x then b else s.getV r := by
  simp only [State.getV, State.setV_v, Vector.getElem_set, Fin.ext_iff, eq_comm]

@[simp] theorem State.getV_setVFlag (s : State) (x r : Reg) (b flag : Byte) :
    (s.setVFlag x b flag).getV r = if r = vf then flag else if r = x then b else s.getV r := by
  simp [State.setVFlag]

@[simp] theorem State.getV_setIndex (s : State) (w : Word) (r : Reg) : (s.setIndex w).getV r = s.getV r := rfl
@[simp] theorem State.getV_setStack (s : State) (l : List Word) (r : Reg) : (s.setStack l).getV r = s.getV r := rfl
@[simp] theorem State.getV_setDelay (s : State) (b : Byte) (r : Reg) : (s.setDelay b).getV r = s.getV r := rfl
@[simp] theorem State.getV_setSound (s : State) (b : Byte) (r : Reg) : (s.setSound b).getV r = s.getV r := rfl
@[simp] theorem State.getV_setFb (s : State) (f : Framebuffer) (r : Reg) : (s.setFb f).getV r = s.getV r := rfl
@[simp] theorem State.getV_setMem (s : State) (m : Memory) (r : Reg) : (s.setMem m).getV r = s.getV r := rfl
@[simp] theorem State.getV_countDraw (s : State) (r : Reg) : s.countDraw.getV r = s.getV r := rfl
@[simp] theorem getV_finish_increment (s : State) (r : Reg) : (finish .increment s).getV r = s.getV r := rfl
@[simp] theorem getV_finish_skip (p : Bool) (s : State) (r : Reg) : (finish (.skip p) s).getV r = s.getV r := rfl
@[simp] theorem getV_finish_jump (t : Word) (s : State) (r : Reg) : (finish (.jump t) s).getV r = s.getV r := rfl
@[simp] theorem getV_finish_halt (s : State) (r : Reg) : (finish .halt s).getV r = s.getV r := rfl
@[simp] theorem getV_faultState (k : FaultKind) (s : State) (r : Reg) : (faultState k s).getV r = s.getV r := rfl
@[simp] theorem getV_beginIteration (s : State) (r : Reg) : (beginIteration s).getV r = s.getV r := rfl

theorem State.getV_setRegs (s : State) (w : Vector Byte 16) (r : Reg) : (s.setRegs w).getV r = w[r.val] := rfl

/-- Two states with the same registers one by one have the same register file. -/
theorem regs_ext (v w : Vector Byte 16) (h : ∀ r : Reg, v[r.val] = w[r.val]) : v = w :=
  Vector.ext fun i hi => h ⟨i, hi⟩

/-! ## The register block -/

@[simp] theorem regBlock_length (s : State) (x : Reg) : (regBlock s x).length = x.val + 1 := by
  have := x.isLt
  simp [regBlock]

theorem regBlock_getElem (s : State) (x r : Reg) (h : r.val ≤ x.val) :
    (regBlock s x)[r.val]'(by simp; omega) = s.getV r := by
  simp [regBlock, State.getV]

theorem loadBlock_getElem (m : Memory) (a : Nat) (v : Vector Byte 16) (n i : Nat) (hi : i < 16) :
    (loadBlock m a v n)[i] = if i < n then m.read (a + i) else v[i] := by
  induction n with
  | zero => simp [loadBlock]
  | succ n ih =>
    simp only [loadBlock, Vector.getElem_setIfInBounds, ih]
    by_cases h : n = i
    · subst h; simp
    · have : (i < n + 1) = (i < n) := by simp; omega
      simp [h, this]

/-! ## Keys -/

theorem mem_allKeys (k : Fin 16) : k ∈ allKeys := by
  revert k; decide

/-- What the scan for the lowest key can answer (R263). -/
theorem lowest_none_iff (K : Keypad) : K.lowest = none ↔ ∀ k, K.pressed k = false := by
  simp only [Keypad.lowest, List.find?_eq_none]
  constructor
  · intro h k; simpa using h k (mem_allKeys k)
  · intro h k _; simp [h k]

theorem allKeys_sorted : allKeys.Pairwise (· < ·) := by decide

/-- The key found is pressed and no lower key is. -/
theorem lowest_some (K : Keypad) (k : Fin 16) (h : K.lowest = some k) :
    K.pressed k = true ∧ ∀ j, j < k → K.pressed j = false := by
  obtain ⟨hk, as, bs, hl, has⟩ := List.find?_eq_some_iff_append.1 h
  refine ⟨hk, fun j hj => ?_⟩
  have hmem : j ∈ as ++ k :: bs := hl ▸ mem_allKeys j
  have hs : (as ++ k :: bs).Pairwise (· < ·) := hl ▸ allKeys_sorted
  rcases List.mem_append.1 hmem with hj' | hj'
  · simpa using has j hj'
  · rcases List.mem_cons.1 hj' with rfl | hj'
    · exact absurd hj (by omega)
    · have := (List.pairwise_cons.1 (List.pairwise_append.1 hs).2.1).1 j hj'
      exact absurd hj (by omega)

theorem keyNumber_cases (b : Byte) :
    (∃ k, keyNumber b = some k ∧ k.val = b.toNat) ∨ (keyNumber b = none ∧ 15 < b.toNat) := by
  unfold keyNumber
  split
  · exact .inl ⟨_, rfl, by simp; omega⟩
  · exact .inr ⟨rfl, by omega⟩

/-! ## The stack (R25) -/

theorem push_cases (l : List Word) (v : Word) :
    (push l v = some (l ++ [v]) ∧ l.length < 16) ∨ (push l v = none ∧ 16 ≤ l.length) := by
  unfold push
  split
  · exact .inl ⟨rfl, by assumption⟩
  · exact .inr ⟨rfl, by omega⟩

theorem pop_cases (l : List Word) :
    (∃ t rest, l = rest ++ [t] ∧ pop l = some (t, rest)) ∨ (l = [] ∧ pop l = none) := by
  rcases List.eq_nil_or_concat l with rfl | ⟨rest, t, rfl⟩
  · exact .inr ⟨rfl, rfl⟩
  · exact .inl ⟨t, rest, by simp, by simp [pop]⟩

@[simp] theorem pop_append (l : List Word) (t : Word) : pop (l ++ [t]) = some (t, l) := by
  simp [pop]

@[simp] theorem pop_nil : pop [] = none := rfl

/-! ## Timers and pc -/

@[simp] theorem countDown_toNat (b : Byte) : (countDown b).toNat = b.toNat - 1 := by
  unfold countDown
  split
  · simp_all
  · rename_i h
    have h0 : b.toNat ≠ 0 := fun e => h (BitVec.eq_of_toNat_eq (by simpa using e))
    have := b.isLt
    rw [BitVec.toNat_sub]
    simp
    omega

theorem add_toNat_of_fits (w : Word) (k : Nat) (h : w.toNat + k < 65536) :
    (w + BitVec.ofNat 16 k).toNat = w.toNat + k := by
  rw [BitVec.toNat_add, BitVec.toNat_ofNat]
  omega

theorem newPc_increment_toNat (w : Word) (h : w.toNat ≤ 4094) : (w + 2#16).toNat = w.toNat + 2 :=
  add_toNat_of_fits w 2 (by omega)

theorem newPc_skip_toNat (p : Bool) (w : Word) (h : w.toNat ≤ 4094) :
    (newPc (.skip p) w).toNat = w.toNat + if p then 4 else 2 := by
  cases p
  · exact add_toNat_of_fits w 2 (by omega)
  · exact add_toNat_of_fits w 4 (by omega)

theorem jumpV0Target_toNat (s : State) (nnn : Addr12) :
    (jumpV0Target s nnn).toNat = nnn.toNat + (s.getV 0).toNat := by
  have h1 := nnn.isLt
  have h2 := (s.getV 0).isLt
  rw [jumpV0Target, BitVec.toNat_add, zext16_toNat, BitVec.toNat_setWidth]
  omega

/-! ## Results and flags, as numbers -/

@[simp] theorem sum8_toNat (x y : Byte) : (sum8 x y).toNat = (x.toNat + y.toNat) % 256 := trunc8_toNat _

@[simp] theorem diff8_toNat (x y : Byte) : (diff8 x y).toNat = (x.toNat + 256 - y.toNat) % 256 := trunc8_toNat _

@[simp] theorem shr8_toNat (b : Byte) : (shr8 b).toNat = b.toNat / 2 := by
  have := b.isLt
  simp [shr8]
  omega

@[simp] theorem shl8_toNat (b : Byte) : (shl8 b).toNat = b.toNat * 2 % 256 := by
  simp [shl8]

@[simp] theorem flagByte_toNat (p : Bool) : (flagByte p).toNat = if p then 1 else 0 := by
  cases p <;> rfl

@[simp] theorem lsbFlag_toNat (b : Byte) : (lsbFlag b).toNat = b.toNat % 2 := by
  simp [lsbFlag]
  omega

@[simp] theorem msbFlag_toNat (b : Byte) : (msbFlag b).toNat = b.toNat / 128 := by
  have := b.isLt
  simp [msbFlag]
  omega

end Sys2Proof.Machine
end

