-- ==== Sys2Proof/Laws/Exec.lean ====
section
/-! SUPPORT. What an instruction can do, said once: it takes a fault, blocks, or writes and completes (40_cycle.md
R104 to R108). Later proofs cite these instead of unfolding `exec`. -/

namespace Sys2Proof.Machine

/-! ## The end of a step -/

theorem finish_of_ne_halt (e : Effect) (s : State) (h : e ≠ .halt) :
    finish e s = { s with
      pc := newPc e s.pc
      delay := countDown s.delay
      sound := countDown s.sound
      returned := some .continued } := by
  cases e <;> first | rfl | exact absurd rfl h

theorem finish_halt (s : State) : finish .halt s = { s with returned := some .blockForIO } := rfl

theorem sameHost_refl (s : State) : SameHost s s := ⟨rfl, rfl, rfl, rfl, rfl, rfl⟩

theorem tookFault_faultState (k : FaultKind) (s : State) : TookFault k s (faultState k s) :=
  ⟨rfl, rfl, ⟨rfl, rfl, rfl, rfl, rfl, rfl, rfl, rfl⟩, sameHost_refl s, rfl⟩

/-! ## One inversion lemma for all instructions -/

/-- `u` holds the writes of an instruction executed at `s`: pc, status and the host's side are not among them. -/
structure Wrote (s u : State) : Prop where
  pc     : u.pc = s.pc
  status : u.status = s.status
  host   : SameHost s u

/-- What `exec` can answer: a fault taken at `s`, a block with no write at all, which only FX0A without a pressed key
gives, or writes and an effect other than `Halt`. -/
inductive ExecShape (i : Instr) (s : State) : State → Prop where
  | fault (k : FaultKind) : ExecShape i s (faultState k s)
  | blocked (x : Reg) (hi : i = .waitKey x) (hk : s.snapshot.lowest = none) : ExecShape i s (finish .halt s)
  | wrote (e : Effect) (u : State) (he : e ≠ .halt) (hu : Wrote s u) : ExecShape i s (finish e u)

theorem wrote_refl (s : State) : Wrote s s := ⟨rfl, rfl, sameHost_refl s⟩

/-- Every instruction answers a next state, of one of the three shapes. -/
theorem exec_shape (i : Instr) (s : State) : ∃ t, exec i s = .next t ∧ ExecShape i s t := by
  have done (e : Effect) (u : State) (he : e ≠ .halt) (hu : Wrote s u) :
      ∃ t, complete e u = .next t ∧ ExecShape i s t := ⟨_, rfl, .wrote e u he hu⟩
  have failed (k : FaultKind) : ∃ t, raise k s = .next t ∧ ExecShape i s t := ⟨_, rfl, .fault k⟩
  cases i with
  | ret =>
    simp only [exec, execRet]
    split
    · exact done _ _ nofun ⟨rfl, rfl, sameHost_refl s⟩
    · exact failed _
  | call nnn =>
    simp only [exec, execCall]
    split
    · exact done _ _ nofun ⟨rfl, rfl, sameHost_refl s⟩
    · exact failed _
  | skipKey x | skipNotKey x =>
    simp only [exec, execSkipKey, execSkipNotKey]
    split
    · exact done _ _ nofun (wrote_refl s)
    · exact failed _
  | addIndex x =>
    simp only [exec, execAddIndex]
    split
    · exact failed _
    · exact done _ _ nofun ⟨rfl, rfl, sameHost_refl s⟩
  | storeBcd x | storeRegs x | loadRegs x =>
    simp only [exec, execStoreBcd, execStoreRegs, execLoadRegs]
    split
    · exact failed _
    · exact done _ _ nofun ⟨rfl, rfl, sameHost_refl s⟩
  | draw x y n =>
    simp only [exec, execDraw]
    split
    · exact failed _
    · exact done _ _ nofun ⟨rfl, rfl, sameHost_refl s⟩
  | waitKey x =>
    simp only [exec, execWaitKey, waitKey]
    split
    · exact done _ _ nofun ⟨rfl, rfl, sameHost_refl s⟩
    · rename_i h
      exact ⟨_, rfl, .blocked x rfl h⟩
  | _ => exact done _ _ nofun ⟨rfl, rfl, sameHost_refl s⟩

/-- If `exec` answers `next t`, then `t` has one of the three shapes. -/
theorem exec_cases {i : Instr} {s t : State} (h : exec i s = .next t) : ExecShape i s t := by
  obtain ⟨u, hu, hs⟩ := exec_shape i s
  rw [hu] at h
  exact Host.Outcome.next.inj h ▸ hs

/-! ## Fetch and execute_one -/

theorem fetchedWord_eq (s : State) : fetchedWord s = wordAtPc s := rfl

/-- The word at pc, high byte first, as a number (R56). -/
theorem wordAtPc_toNat (s : State) :
    (wordAtPc s).toNat = (s.mem.read s.pc.toNat).toNat * 256 + (s.mem.read (s.pc.toNat + 1)).toNat :=
  wordOfBytes_toNat _ _

/-- The fetch check, in the order of R311: range, then alignment, then none. -/
theorem fetchFault_cases (s : State) :
    (fetchFault s = some .fetchOutOfRange ∧ 4094 < s.pc.toNat) ∨
    (fetchFault s = some .misalignedFetch ∧ s.pc.toNat ≤ 4094 ∧ s.pc.toNat % 2 = 1 ∧
      s.params.oddPcFetch = .fault) ∨
    (fetchFault s = none ∧ Fetchable s) := by
  unfold fetchFault Fetchable
  split
  · exact .inl ⟨rfl, by assumption⟩
  · split
    · rename_i h1 h2
      exact .inr (.inl ⟨rfl, by omega, h2⟩)
    · rename_i h1 h2
      refine .inr (.inr ⟨rfl, by omega, ?_⟩)
      cases h : s.params.oddPcFetch
      · exact .inl (by simp only [h, and_true] at h2; omega)
      · exact .inr rfl

theorem executeOne_of_fetches {s : State} {i : Instr} (h : Fetches s i) : executeOne s = exec i s := by
  obtain ⟨-, hf, hd⟩ := h
  have hn : fetchFault s = none := by
    rcases fetchFault_cases s with ⟨-, h⟩ | ⟨-, -, h1, h2⟩ | ⟨h, -⟩
    · exact absurd hf.1 (by omega)
    · rcases hf.2 with h | h
      · omega
      · simp [h2] at h
    · exact h
  simp only [executeOne, hn, fetchedWord_eq, hd]

/-- What `execute_one` can answer: a fault of the fetch or of the decoder, or what the decoded instruction answers. -/
inductive ExecuteShape (s : State) : State → Prop where
  | fault (k : FaultKind) : ExecuteShape s (faultState k s)
  | ran (i : Instr) (t : State) (hf : Fetchable s) (hd : decode (wordAtPc s) = .instr i)
      (he : exec i s = .next t) (hs : ExecShape i s t) : ExecuteShape s t

theorem executeOne_shape (s : State) : ∃ t, executeOne s = .next t ∧ ExecuteShape s t := by
  unfold executeOne
  rcases fetchFault_cases s with ⟨h, -⟩ | ⟨h, -⟩ | ⟨h, hf⟩
  · simp only [h]; exact ⟨_, rfl, .fault _⟩
  · simp only [h]; exact ⟨_, rfl, .fault _⟩
  · simp only [h, fetchedWord_eq]
    split
    · exact ⟨_, rfl, .fault _⟩
    · rename_i i hd
      obtain ⟨t, ht, hs⟩ := exec_shape i s
      exact ⟨t, ht, .ran i t hf hd ht hs⟩

theorem executeOne_cases {s t : State} (h : executeOne s = .next t) : ExecuteShape s t := by
  obtain ⟨u, hu, hs⟩ := executeOne_shape s
  rw [hu] at h
  exact Host.Outcome.next.inj h ▸ hs

/-! ## One step -/

@[simp] theorem wordAtPc_beginIteration (s : State) : wordAtPc (beginIteration s) = wordAtPc s := rfl

theorem fetchable_beginIteration (s : State) : Fetchable (beginIteration s) ↔ Fetchable s := Iff.rfl

theorem fetches_beginIteration (s : State) (i : Instr) : Fetches (beginIteration s) i ↔ Fetches s i := Iff.rfl

/-- A step from a Running state is one iteration, whose `execute_one` answered some `u`. -/
theorem step_cases {s t : State} (h : step s = .next t) :
    s.status = .running ∧ ∃ u, executeOne (beginIteration s) = .next u ∧ t = endIteration u := by
  unfold step at h
  split at h
  · rename_i hr
    refine ⟨hr, ?_⟩
    obtain ⟨u, hu, -⟩ := executeOne_shape (beginIteration s)
    simp only [loopIteration, around, hu] at h
    exact ⟨u, hu, (Host.Outcome.next.inj h).symm⟩
  · cases h

theorem step_of_running {s u : State} (hr : s.status = .running) (hu : executeOne (beginIteration s) = .next u) :
    step s = .next (endIteration u) := by
  simp only [step, hr, loopIteration, around, hu]

/-- A step of the emulation loop alone, from a Running state: its `execute_one` answered some `u`. -/
theorem loopStep_cases {s t : State} (h : loopStep s = .next t) :
    s.status = .running ∧ ∃ u, executeOne (takeSnapshot s) = .next u ∧ t = answer u := by
  unfold loopStep at h
  split at h
  · rename_i hr
    obtain ⟨u, hu, -⟩ := executeOne_shape (takeSnapshot s)
    simp only [around, hu] at h
    exact ⟨hr, u, hu, (Host.Outcome.next.inj h).symm⟩
  · cases h

theorem loopStep_of_running {s u : State} (hr : s.status = .running)
    (hu : executeOne (takeSnapshot s) = .next u) : loopStep s = .next (answer u) := by
  simp only [loopStep, hr, around, hu]

/-! ## The host's actions change the host's side only -/

/-- The loop's answer to a completed step. -/
theorem answer_of_continued (s : State) (h : s.returned = some .continued) :
    answer s = { s with keypad := clearAll, rendered := some (fbRead s.fb) } := by
  simp only [answer, h]

/-- The loop answers nothing to a step that blocked or faulted. -/
theorem answer_of_not_continued (s : State) (h : s.returned ≠ some .continued) : answer s = s := by
  unfold answer
  split <;> first | rfl | contradiction

theorem answer_block (s : State) :
    SameBlock s (answer s) ∧ (answer s).status = s.status ∧ (answer s).returned = s.returned ∧
      (answer s).params = s.params ∧ (answer s).draws = s.draws ∧ (answer s).inputs = s.inputs ∧
      (answer s).iterations = s.iterations ∧ (answer s).snapshot = s.snapshot := by
  unfold answer
  split <;> exact ⟨⟨rfl, rfl, rfl, rfl, rfl, rfl, rfl, rfl⟩, rfl, rfl, rfl, rfl, rfl, rfl, rfl⟩

theorem endIteration_block (s : State) :
    SameBlock s (endIteration s) ∧ (endIteration s).status = s.status ∧ (endIteration s).returned = s.returned ∧
      (endIteration s).params = s.params ∧ (endIteration s).draws = s.draws ∧
      (endIteration s).inputs = s.inputs.tail ∧ (endIteration s).iterations = s.iterations + 1 ∧
      (endIteration s).snapshot = s.snapshot := by
  obtain ⟨hb, h1, h2, h3, h4, h5, h6, h7⟩ := answer_block (hear (currentInput s).during s)
  exact ⟨hb, h1, h2, h3, h4, congrArg List.tail h5, congrArg (· + 1) h6, h7⟩

theorem beginIteration_block (s : State) :
    SameBlock s (beginIteration s) ∧ (beginIteration s).status = s.status ∧
      (beginIteration s).returned = s.returned ∧ (beginIteration s).params = s.params ∧
      (beginIteration s).draws = s.draws ∧ (beginIteration s).inputs = s.inputs :=
  ⟨⟨rfl, rfl, rfl, rfl, rfl, rfl, rfl, rfl⟩, rfl, rfl, rfl, rfl, rfl⟩

/-- `execute_one` leaves the host's side as it is, whatever it answers. -/
theorem executeOne_sameHost {s t : State} (h : executeOne s = .next t) : SameHost s t := by
  cases executeOne_cases h with
  | fault k => exact sameHost_refl s
  | ran i _ hf hd he hs =>
    cases hs with
    | fault k => exact sameHost_refl s
    | blocked x hi hk => exact sameHost_refl s
    | wrote e u hne hu => rw [finish_of_ne_halt e u hne]; exact hu.host

end Sys2Proof.Machine
end

