-- ==== Sys2Proof/Laws/PerInstr.lean ====
section
/-! SUPPORT. Families of one lemma per constructor of `Instr`, about the instruction as syntax. -/

namespace Sys2Proof.Laws

/-! ## Fields -/

theorem fieldFits_toNat (w : Nat) (b : BitVec w) : fieldFits w b.toNat = true := by
  simp [fieldFits, b.isLt]

theorem fieldFits_reg (x : Reg) : fieldFits 4 x.val = true := by
  simp [fieldFits]

theorem nibbleA_encodeAddr (a : Nibble) (nnn : Addr12) : nibbleA (encodeAddr a nnn) = a :=
  nibbleA_wordOfNibbles a _ _ _

theorem nibbleA_encodeRegImm (a : Nibble) (x : Reg) (nn : Byte) : nibbleA (encodeRegImm a x nn) = a :=
  nibbleA_wordOfNibbles a _ _ _

theorem nibbleA_encodeRegReg (a : Nibble) (x y : Reg) (d : Nibble) : nibbleA (encodeRegReg a x y d) = a :=
  nibbleA_wordOfNibbles a _ _ d

/-- Every operand fits the field that 30_encoding.md R71 gives it. -/
def FieldWidths.Statement (i : Instr) : Prop := i.wellFormed = true

theorem FieldWidths.clearScreen : FieldWidths.Statement (.clearScreen) := rfl

theorem FieldWidths.ret : FieldWidths.Statement (.ret) := rfl

theorem FieldWidths.jump (nnn : Addr12) : FieldWidths.Statement (.jump nnn) := fieldFits_toNat 12 nnn

theorem FieldWidths.call (nnn : Addr12) : FieldWidths.Statement (.call nnn) := fieldFits_toNat 12 nnn

theorem FieldWidths.skipEqImm (x : Reg) (nn : Byte) : FieldWidths.Statement (.skipEqImm x nn) := by
  simp [FieldWidths.Statement, Instr.wellFormed, fieldFits_reg x, fieldFits_toNat 8 nn]

theorem FieldWidths.skipNeImm (x : Reg) (nn : Byte) : FieldWidths.Statement (.skipNeImm x nn) := by
  simp [FieldWidths.Statement, Instr.wellFormed, fieldFits_reg x, fieldFits_toNat 8 nn]

theorem FieldWidths.skipEqReg (x y : Reg) : FieldWidths.Statement (.skipEqReg x y) := by
  simp [FieldWidths.Statement, Instr.wellFormed, fieldFits_reg x, fieldFits_reg y]

theorem FieldWidths.skipNeReg (x y : Reg) : FieldWidths.Statement (.skipNeReg x y) := by
  simp [FieldWidths.Statement, Instr.wellFormed, fieldFits_reg x, fieldFits_reg y]

theorem FieldWidths.loadImm (x : Reg) (nn : Byte) : FieldWidths.Statement (.loadImm x nn) := by
  simp [FieldWidths.Statement, Instr.wellFormed, fieldFits_reg x, fieldFits_toNat 8 nn]

theorem FieldWidths.addImm (x : Reg) (nn : Byte) : FieldWidths.Statement (.addImm x nn) := by
  simp [FieldWidths.Statement, Instr.wellFormed, fieldFits_reg x, fieldFits_toNat 8 nn]

theorem FieldWidths.move (x y : Reg) : FieldWidths.Statement (.move x y) := by
  simp [FieldWidths.Statement, Instr.wellFormed, fieldFits_reg x, fieldFits_reg y]

theorem FieldWidths.or (x y : Reg) : FieldWidths.Statement (.or x y) := by
  simp [FieldWidths.Statement, Instr.wellFormed, fieldFits_reg x, fieldFits_reg y]

theorem FieldWidths.and (x y : Reg) : FieldWidths.Statement (.and x y) := by
  simp [FieldWidths.Statement, Instr.wellFormed, fieldFits_reg x, fieldFits_reg y]

theorem FieldWidths.xor (x y : Reg) : FieldWidths.Statement (.xor x y) := by
  simp [FieldWidths.Statement, Instr.wellFormed, fieldFits_reg x, fieldFits_reg y]

theorem FieldWidths.addCarry (x y : Reg) : FieldWidths.Statement (.addCarry x y) := by
  simp [FieldWidths.Statement, Instr.wellFormed, fieldFits_reg x, fieldFits_reg y]

theorem FieldWidths.subNotBorrow (x y : Reg) : FieldWidths.Statement (.subNotBorrow x y) := by
  simp [FieldWidths.Statement, Instr.wellFormed, fieldFits_reg x, fieldFits_reg y]

theorem FieldWidths.shiftRight (x y : Reg) : FieldWidths.Statement (.shiftRight x y) := by
  simp [FieldWidths.Statement, Instr.wellFormed, fieldFits_reg x, fieldFits_reg y]

theorem FieldWidths.reverseSub (x y : Reg) : FieldWidths.Statement (.reverseSub x y) := by
  simp [FieldWidths.Statement, Instr.wellFormed, fieldFits_reg x, fieldFits_reg y]

theorem FieldWidths.shiftLeft (x y : Reg) : FieldWidths.Statement (.shiftLeft x y) := by
  simp [FieldWidths.Statement, Instr.wellFormed, fieldFits_reg x, fieldFits_reg y]

theorem FieldWidths.loadIndex (nnn : Addr12) : FieldWidths.Statement (.loadIndex nnn) := fieldFits_toNat 12 nnn

theorem FieldWidths.jumpV0 (nnn : Addr12) : FieldWidths.Statement (.jumpV0 nnn) := fieldFits_toNat 12 nnn

theorem FieldWidths.random (x : Reg) (nn : Byte) : FieldWidths.Statement (.random x nn) := by
  simp [FieldWidths.Statement, Instr.wellFormed, fieldFits_reg x, fieldFits_toNat 8 nn]

theorem FieldWidths.draw (x y : Reg) (n : Nibble) : FieldWidths.Statement (.draw x y n) := by
  simp [FieldWidths.Statement, Instr.wellFormed, fieldFits_reg x, fieldFits_reg y, fieldFits_toNat 4 n]

theorem FieldWidths.skipKey (x : Reg) : FieldWidths.Statement (.skipKey x) := fieldFits_reg x

theorem FieldWidths.skipNotKey (x : Reg) : FieldWidths.Statement (.skipNotKey x) := fieldFits_reg x

theorem FieldWidths.readDelay (x : Reg) : FieldWidths.Statement (.readDelay x) := fieldFits_reg x

theorem FieldWidths.setDelay (x : Reg) : FieldWidths.Statement (.setDelay x) := fieldFits_reg x

theorem FieldWidths.setSound (x : Reg) : FieldWidths.Statement (.setSound x) := fieldFits_reg x

theorem FieldWidths.addIndex (x : Reg) : FieldWidths.Statement (.addIndex x) := fieldFits_reg x

theorem FieldWidths.fontAddr (x : Reg) : FieldWidths.Statement (.fontAddr x) := fieldFits_reg x

theorem FieldWidths.storeBcd (x : Reg) : FieldWidths.Statement (.storeBcd x) := fieldFits_reg x

theorem FieldWidths.storeRegs (x : Reg) : FieldWidths.Statement (.storeRegs x) := fieldFits_reg x

theorem FieldWidths.loadRegs (x : Reg) : FieldWidths.Statement (.loadRegs x) := fieldFits_reg x

theorem FieldWidths.waitKey (x : Reg) : FieldWidths.Statement (.waitKey x) := fieldFits_reg x

/-- The first nibble of an instruction's word, the `a` of its row in 30_encoding.md R73. -/
def leadingNibble : Instr → Nibble
  | .clearScreen => 0x0
  | .ret => 0x0
  | .jump _ => 0x1
  | .call _ => 0x2
  | .skipEqImm _ _ => 0x3
  | .skipNeImm _ _ => 0x4
  | .skipEqReg _ _ => 0x5
  | .skipNeReg _ _ => 0x9
  | .loadImm _ _ => 0x6
  | .addImm _ _ => 0x7
  | .move _ _ => 0x8
  | .or _ _ => 0x8
  | .and _ _ => 0x8
  | .xor _ _ => 0x8
  | .addCarry _ _ => 0x8
  | .subNotBorrow _ _ => 0x8
  | .shiftRight _ _ => 0x8
  | .reverseSub _ _ => 0x8
  | .shiftLeft _ _ => 0x8
  | .loadIndex _ => 0xA
  | .jumpV0 _ => 0xB
  | .random _ _ => 0xC
  | .draw _ _ _ => 0xD
  | .skipKey _ => 0xE
  | .skipNotKey _ => 0xE
  | .readDelay _ => 0xF
  | .setDelay _ => 0xF
  | .setSound _ => 0xF
  | .addIndex _ => 0xF
  | .fontAddr _ => 0xF
  | .storeBcd _ => 0xF
  | .storeRegs _ => 0xF
  | .loadRegs _ => 0xF
  | .waitKey _ => 0xF

/-- The encoder puts the row's first nibble where R72 has it, whatever the operands. -/
def LeadingNibble.Statement (i : Instr) : Prop := nibbleA (encode i) = leadingNibble i

theorem LeadingNibble.clearScreen : LeadingNibble.Statement (.clearScreen) := rfl

theorem LeadingNibble.ret : LeadingNibble.Statement (.ret) := rfl

theorem LeadingNibble.jump (nnn : Addr12) : LeadingNibble.Statement (.jump nnn) := nibbleA_encodeAddr _ nnn

theorem LeadingNibble.call (nnn : Addr12) : LeadingNibble.Statement (.call nnn) := nibbleA_encodeAddr _ nnn

theorem LeadingNibble.skipEqImm (x : Reg) (nn : Byte) : LeadingNibble.Statement (.skipEqImm x nn) := nibbleA_encodeRegImm _ x nn

theorem LeadingNibble.skipNeImm (x : Reg) (nn : Byte) : LeadingNibble.Statement (.skipNeImm x nn) := nibbleA_encodeRegImm _ x nn

theorem LeadingNibble.skipEqReg (x y : Reg) : LeadingNibble.Statement (.skipEqReg x y) := nibbleA_encodeRegReg _ x y _

theorem LeadingNibble.skipNeReg (x y : Reg) : LeadingNibble.Statement (.skipNeReg x y) := nibbleA_encodeRegReg _ x y _

theorem LeadingNibble.loadImm (x : Reg) (nn : Byte) : LeadingNibble.Statement (.loadImm x nn) := nibbleA_encodeRegImm _ x nn

theorem LeadingNibble.addImm (x : Reg) (nn : Byte) : LeadingNibble.Statement (.addImm x nn) := nibbleA_encodeRegImm _ x nn

theorem LeadingNibble.move (x y : Reg) : LeadingNibble.Statement (.move x y) := nibbleA_encodeRegReg _ x y _

theorem LeadingNibble.or (x y : Reg) : LeadingNibble.Statement (.or x y) := nibbleA_encodeRegReg _ x y _

theorem LeadingNibble.and (x y : Reg) : LeadingNibble.Statement (.and x y) := nibbleA_encodeRegReg _ x y _

theorem LeadingNibble.xor (x y : Reg) : LeadingNibble.Statement (.xor x y) := nibbleA_encodeRegReg _ x y _

theorem LeadingNibble.addCarry (x y : Reg) : LeadingNibble.Statement (.addCarry x y) := nibbleA_encodeRegReg _ x y _

theorem LeadingNibble.subNotBorrow (x y : Reg) : LeadingNibble.Statement (.subNotBorrow x y) := nibbleA_encodeRegReg _ x y _

theorem LeadingNibble.shiftRight (x y : Reg) : LeadingNibble.Statement (.shiftRight x y) := nibbleA_encodeRegReg _ x y _

theorem LeadingNibble.reverseSub (x y : Reg) : LeadingNibble.Statement (.reverseSub x y) := nibbleA_encodeRegReg _ x y _

theorem LeadingNibble.shiftLeft (x y : Reg) : LeadingNibble.Statement (.shiftLeft x y) := nibbleA_encodeRegReg _ x y _

theorem LeadingNibble.loadIndex (nnn : Addr12) : LeadingNibble.Statement (.loadIndex nnn) := nibbleA_encodeAddr _ nnn

theorem LeadingNibble.jumpV0 (nnn : Addr12) : LeadingNibble.Statement (.jumpV0 nnn) := nibbleA_encodeAddr _ nnn

theorem LeadingNibble.random (x : Reg) (nn : Byte) : LeadingNibble.Statement (.random x nn) := nibbleA_encodeRegImm _ x nn

theorem LeadingNibble.draw (x y : Reg) (n : Nibble) : LeadingNibble.Statement (.draw x y n) := nibbleA_encodeRegReg _ x y _

theorem LeadingNibble.skipKey (x : Reg) : LeadingNibble.Statement (.skipKey x) := nibbleA_encodeRegImm _ x _

theorem LeadingNibble.skipNotKey (x : Reg) : LeadingNibble.Statement (.skipNotKey x) := nibbleA_encodeRegImm _ x _

theorem LeadingNibble.readDelay (x : Reg) : LeadingNibble.Statement (.readDelay x) := nibbleA_encodeRegImm _ x _

theorem LeadingNibble.setDelay (x : Reg) : LeadingNibble.Statement (.setDelay x) := nibbleA_encodeRegImm _ x _

theorem LeadingNibble.setSound (x : Reg) : LeadingNibble.Statement (.setSound x) := nibbleA_encodeRegImm _ x _

theorem LeadingNibble.addIndex (x : Reg) : LeadingNibble.Statement (.addIndex x) := nibbleA_encodeRegImm _ x _

theorem LeadingNibble.fontAddr (x : Reg) : LeadingNibble.Statement (.fontAddr x) := nibbleA_encodeRegImm _ x _

theorem LeadingNibble.storeBcd (x : Reg) : LeadingNibble.Statement (.storeBcd x) := nibbleA_encodeRegImm _ x _

theorem LeadingNibble.storeRegs (x : Reg) : LeadingNibble.Statement (.storeRegs x) := nibbleA_encodeRegImm _ x _

theorem LeadingNibble.loadRegs (x : Reg) : LeadingNibble.Statement (.loadRegs x) := nibbleA_encodeRegImm _ x _

theorem LeadingNibble.waitKey (x : Reg) : LeadingNibble.Statement (.waitKey x) := nibbleA_encodeRegImm _ x _

end Sys2Proof.Laws
end

