-- ==== Sys2Proof/Tests/Slice0.lean ====
section
/-! SUPPORT. Tests of single steps, whose expected results are the vectors of 95_test_vectors.md or are worked out by
hand from the rule named, and a witness for the hypotheses of every obligation that has some. -/

namespace Sys2Proof.Tests

open Sys2Proof.Machine

/-! ## Helpers -/

/-- The next state of an outcome. -/
def after (r : Result) : State :=
  match r with
  | .next t => t
  | .fault _ => State.reset
  | .refused _ => State.reset

/-- The outcome is a next state. -/
def answers (r : Result) : Bool :=
  match r with
  | .next _ => true
  | .fault _ => false
  | .refused _ => false

theorem next_after {r : Result} (h : answers r = true) : r = .next (after r) := by
  cases r <;> first | rfl | cases h

/-- One `execute_one` of the word `w` stored at the pc of `s`. -/
def ran (w : Nat) (s : State) : State := after (executeOne (s.withFetchWord 16 w))

/-- The kind of the fault that a state's status names. -/
def faultKind (s : State) : Option FaultKind :=
  match s.status with
  | .running => none
  | .faulted f => some f.kind

/-- The reset state with two registers set. -/
def withRegs (x : Reg) (a : Byte) (y : Reg) (b : Byte) : State := (State.reset.setV x a).setV y b

/-- The reset state with its pc elsewhere. -/
def atPc (pc : Word) : State := { State.reset with pc := pc }

/-- The reset state with other parameters. -/
def withParams (odd : Config.OddPcFetch) (src : Config.ShiftSource) : State :=
  { State.reset with params := ⟨odd, src, .ignored⟩ }

/-- The reset state with keys pressed in the snapshot. -/
def withKeys (K : Keypad) : State := { State.reset with snapshot := K }

/-- A keypad with some keys pressed. -/
def keys (l : List (Fin 16)) : Keypad := l.foldl toggle clearAll

/-- The last state that a machine can fetch from, with the word `w` there: pc = 4094. -/
def lastWord (w : Nat) : State := (atPc 4094).withFetchWord 16 w

/-- How many pixels are lit. -/
def lit (f : Framebuffer) : Nat := (fbRead f).count true

/-- A clear framebuffer with one pixel lit. -/
def onePixel (x : Fin 64) (y : Fin 32) : Framebuffer := fbClear.setPixel x y true

/-! ## WellFormed: ill-formed operands are refused (R71, R22) -/

theorem test_wellformed_register_operand : regOperand 16 = none ∧ regOperand 15 = some 15 := by decide
theorem test_wellformed_nibble_operand : nibbleOperand 16 = none ∧ nibbleOperand 15 = some 15 := by decide
theorem test_wellformed_byte_operand : byteOperand 256 = none ∧ byteOperand 255 = some 255 := by decide
theorem test_wellformed_address_operand : addrOperand 4096 = none ∧ addrOperand 4095 = some 4095 := by decide
theorem test_wellformed_field_bounds :
    fieldFits 4 16 = false ∧ fieldFits 8 256 = false ∧ fieldFits 12 4096 = false ∧ fieldFits 4 0 = true := by decide

/-! ## Decoding: words written out from R72, R73 and 95_test_vectors.md 2.1 -/

theorem test_decode_control :
    decode 0x00E0 = .instr .clearScreen ∧ decode 0x00EE = .instr .ret ∧ decode 0x1ABC = .instr (.jump 0xABC) ∧
    decode 0x2000 = .instr (.call 0x000) ∧ decode 0xBFFF = .instr (.jumpV0 0xFFF) := by decide
theorem test_decode_skips :
    decode 0x3A5C = .instr (.skipEqImm 0xA 0x5C) ∧ decode 0x4A5C = .instr (.skipNeImm 0xA 0x5C) ∧
    decode 0x5120 = .instr (.skipEqReg 1 2) ∧ decode 0x9120 = .instr (.skipNeReg 1 2) ∧
    decode 0xE19E = .instr (.skipKey 1) ∧ decode 0xE1A1 = .instr (.skipNotKey 1) := by decide
theorem test_decode_loads_and_arithmetic :
    decode 0x6B07 = .instr (.loadImm 0xB 0x07) ∧ decode 0x730A = .instr (.addImm 3 0x0A) ∧
    decode 0x8120 = .instr (.move 1 2) ∧ decode 0x8121 = .instr (.or 1 2) ∧ decode 0x8122 = .instr (.and 1 2) ∧
    decode 0x8123 = .instr (.xor 1 2) ∧ decode 0x8124 = .instr (.addCarry 1 2) ∧
    decode 0x8125 = .instr (.subNotBorrow 1 2) ∧ decode 0x8126 = .instr (.shiftRight 1 2) ∧
    decode 0x8127 = .instr (.reverseSub 1 2) ∧ decode 0x8ABE = .instr (.shiftLeft 0xA 0xB) ∧
    decode 0xC30F = .instr (.random 3 0x0F) := by decide
theorem test_decode_index_memory :
    decode 0xAFFF = .instr (.loadIndex 0xFFF) ∧ decode 0xF21E = .instr (.addIndex 2) ∧
    decode 0xF429 = .instr (.fontAddr 4) ∧ decode 0xF033 = .instr (.storeBcd 0) ∧
    decode 0xF255 = .instr (.storeRegs 2) ∧ decode 0xFF65 = .instr (.loadRegs 0xF) := by decide
theorem test_decode_display_timers_keys :
    decode 0xD12F = .instr (.draw 1 2 0xF) ∧ decode 0xD000 = .instr (.draw 0 0 0) ∧
    decode 0xF107 = .instr (.readDelay 1) ∧ decode 0xF015 = .instr (.setDelay 0) ∧
    decode 0xF218 = .instr (.setSound 2) ∧ decode 0xF10A = .instr (.waitKey 1) := by decide
theorem test_decode_errors :
    decode 0x0000 = .error 0x0000 ∧ decode 0x0123 = .error 0x0123 ∧ decode 0x00E1 = .error 0x00E1 ∧
    decode 0x01E0 = .error 0x01E0 ∧ decode 0x5121 = .error 0x5121 ∧ decode 0x8AB8 = .error 0x8AB8 ∧
    decode 0x800F = .error 0x800F ∧ decode 0x912F = .error 0x912F ∧ decode 0xE1A2 = .error 0xE1A2 ∧
    decode 0xF175 = .error 0xF175 ∧ decode 0xFFFF = .error 0xFFFF := by decide
/-- The row that a word matches gives its micro-op with the word's fields. -/
theorem test_opcode_rows :
    ((opcodeRows 0x8121).filter (rowMatches 0x8121)).map OpcodeRow.op = [.or 1 2] ∧
    ((opcodeRows 0xD12F).filter (rowMatches 0xD12F)).map OpcodeRow.op = [.draw 1 2 0xF] ∧
    (opcodeRows 0xF175).filter (rowMatches 0xF175) = [] := by decide
theorem test_encode_words :
    encode (.draw 1 2 0xF) = 0xD12F ∧ encode (.shiftLeft 0xA 0xB) = 0x8ABE ∧ encode (.skipNotKey 1) = 0xE1A1 ∧
    encode (.jump 0xABC) = 0x1ABC ∧ encode (.random 3 0x0F) = 0xC30F ∧ encode .ret = 0x00EE := by decide
/-- The high byte of a word lies at the lower address (R56, R70). -/
theorem test_decode_bytes_high_first :
    decodeBytes [0x61, 0x05, 0x99] = .instr (.loadImm 1 5) [0x99] ∧ decodeBytes [0x61] = .truncated := by decide
theorem test_decode_table_word :
    decodeTableWord 16 0x8ABE = some (.shiftLeft 0xA 0xB) ∧ decodeTableWord 16 0xF175 = none := by decide

/-! ## Cycle, pc and timers (95_test_vectors.md 2.2) -/

/-- delay = 1, sound = 3, any Continue step. -/
theorem test_tick :
    (ran 0x6000 { State.reset with delay := 1, sound := 3 }).delay = 0 ∧
    (ran 0x6000 { State.reset with delay := 1, sound := 3 }).sound = 2 := by decide
/-- delay = 7, a faulting step: delay and pc are unchanged. -/
theorem test_fault_no_tick :
    (ran 0x00EE { State.reset with delay := 7 }).delay = 7 ∧ (ran 0x00EE State.reset).pc = 0x200 := by decide
theorem test_fetch_last_word : (ran 0x1200 (atPc 0xFFE)).pc = 0x200 := by decide
theorem test_fetch_out_of_range :
    faultKind (after (executeOne (atPc 0xFFF))) = some .fetchOutOfRange ∧
    faultKind (after (executeOne (atPc 0x1001))) = some .fetchOutOfRange := by decide
/-- The alignment check comes before the decode, and `Read` makes none. -/
theorem test_fetch_odd :
    faultKind (ran 0xFFFF (atPc 0x203)) = some .misalignedFetch ∧
    faultKind (ran 0xFFFF { withParams .read .vx with pc := 0x203 }) = some (.decodeError 0xFFFF) ∧
    (ran 0x6007 { withParams .read .vx with pc := 0x201 }).getV 0 = 7 ∧
    (ran 0x6007 { withParams .read .vx with pc := 0x201 }).pc = 0x203 := by decide
theorem test_fault_codes :
    (FaultKind.decodeError 0xFFFF).code = 1 ∧ FaultKind.stackOverflow.code = 2 ∧ FaultKind.stackUnderflow.code = 3 ∧
    (FaultKind.memoryOutOfRange 0x1000).code = 4 ∧ FaultKind.fetchOutOfRange.code = 5 ∧
    FaultKind.misalignedFetch.code = 6 ∧ (FaultKind.keyIndexOutOfRange 16).code = 7 ∧
    FaultKind.indexOverflow.code = 8 := by decide

/-! ## Control transfer (95_test_vectors.md 2.3) -/

theorem test_jump : (ran 0x1234 State.reset).pc = 0x234 := by decide
theorem test_call :
    (ran 0x220C (atPc 0x204)).stack = [0x206] ∧ (ran 0x220C (atPc 0x204)).pc = 0x20C ∧
    (ran 0x2300 (atPc 0xFFE)).stack = [0x1000] := by decide
theorem test_call_overflow :
    faultKind (ran 0x2300 (State.reset.setStack (List.replicate 16 0x202))) = some .stackOverflow ∧
    (ran 0x2300 (State.reset.setStack (List.replicate 15 0x202))).stack.length = 16 := by decide
theorem test_ret :
    (ran 0x00EE ((atPc 0x20E).setStack [0x300, 0x206])).pc = 0x206 ∧
    (ran 0x00EE ((atPc 0x20E).setStack [0x300, 0x206])).stack = [0x300] := by decide
theorem test_ret_underflow : faultKind (ran 0x00EE State.reset) = some .stackUnderflow := by decide
/-- The register is V0, whatever nibble b is. -/
theorem test_jumpV0 :
    (ran 0xB500 (withRegs 5 0x40 0 0)).pc = 0x500 ∧ (ran 0xBFFF (withRegs 0 0xFF 1 0)).pc = 0x10FE := by decide

/-! ## Skips (95_test_vectors.md 2.4) -/

theorem test_skipEqImm :
    (ran 0x3342 (withRegs 3 0x42 0 0)).pc = 0x204 ∧ (ran 0x3343 (withRegs 3 0x42 0 0)).pc = 0x202 := by decide
theorem test_skipNeImm :
    (ran 0x4342 (withRegs 3 0x42 0 0)).pc = 0x202 ∧ (ran 0x4300 (withRegs 3 0x42 0 0)).pc = 0x204 := by decide
theorem test_skipEqReg :
    (ran 0x5120 (withRegs 1 7 2 7)).pc = 0x204 ∧ (ran 0x5120 (withRegs 1 7 2 8)).pc = 0x202 := by decide
theorem test_skipNeReg :
    (ran 0x9110 (withRegs 1 7 2 8)).pc = 0x202 ∧ (ran 0x9120 (withRegs 1 7 2 8)).pc = 0x204 := by decide
theorem test_skipKey :
    (ran 0xE59E ((withKeys (keys [10])).setV 5 0xA)).pc = 0x204 ∧
    (ran 0xE59E (State.reset.setV 5 0xA)).pc = 0x202 ∧
    faultKind (ran 0xE59E (State.reset.setV 5 0x10)) = some (.keyIndexOutOfRange 0x10) := by decide
theorem test_skipNotKey :
    (ran 0xE5A1 ((withKeys (keys [10])).setV 5 0xA)).pc = 0x202 ∧
    (ran 0xE5A1 (State.reset.setV 5 0xA)).pc = 0x204 ∧
    faultKind (ran 0xE5A1 (State.reset.setV 5 0xFF)) = some (.keyIndexOutOfRange 0xFF) := by decide

/-! ## Register loads and arithmetic (95_test_vectors.md E5, E6 and 2.5) -/

theorem test_loadImm : (ran 0x6FAA State.reset).getV 0xF = 0xAA := by decide
/-- E5. -/
theorem test_addImm :
    (ran 0x730A (withRegs 3 250 0xF 0x77)).getV 3 = 4 ∧
    (ran 0x730A (withRegs 3 250 0xF 0x77)).getV 0xF = 0x77 := by decide
theorem test_move : (ran 0x8120 (withRegs 1 0 2 9)).getV 1 = 9 := by decide
theorem test_or :
    (ran 0x8121 ((withRegs 1 0x0F 2 0xF0).setV 0xF 1)).getV 1 = 0xFF ∧
    (ran 0x8121 ((withRegs 1 0x0F 2 0xF0).setV 0xF 1)).getV 0xF = 1 := by decide
theorem test_and : (ran 0x8122 (withRegs 1 0x3C 2 0x0F)).getV 1 = 0x0C := by decide
theorem test_xor :
    (ran 0x8123 (withRegs 1 0x3C 2 0x0F)).getV 1 = 0x33 ∧ (ran 0x8113 (withRegs 1 0x3C 2 0x0F)).getV 1 = 0 := by decide
/-- E6. -/
theorem test_addCarry :
    (ran 0x8124 (withRegs 1 200 2 100)).getV 1 = 44 ∧ (ran 0x8124 (withRegs 1 200 2 100)).getV 0xF = 1 ∧
    (ran 0x8124 (withRegs 1 0x7F 2 0x80)).getV 0xF = 0 := by decide
/-- VF as destination and as operand: the flag is written last, the old VF is the addend. -/
theorem test_addCarry_vf :
    (ran 0x8F14 (withRegs 0xF 0x80 1 0x80)).getV 0xF = 1 ∧
    (ran 0x80F4 (withRegs 0xF 1 0 2)).getV 0 = 3 ∧ (ran 0x80F4 (withRegs 0xF 1 0 2)).getV 0xF = 0 := by decide
/-- E6. -/
theorem test_subNotBorrow :
    (ran 0x8125 (withRegs 1 5 2 10)).getV 1 = 251 ∧ (ran 0x8125 (withRegs 1 5 2 10)).getV 0xF = 0 ∧
    (ran 0x8125 (withRegs 1 10 2 5)).getV 1 = 5 ∧ (ran 0x8125 (withRegs 1 10 2 5)).getV 0xF = 1 := by decide
theorem test_subNotBorrow_equal :
    (ran 0x8125 (withRegs 1 5 2 5)).getV 1 = 0 ∧ (ran 0x8125 (withRegs 1 5 2 5)).getV 0xF = 1 ∧
    (ran 0x8F15 (withRegs 0xF 3 1 5)).getV 0xF = 0 := by decide
theorem test_shiftRight :
    (ran 0x8126 (withRegs 1 0x05 2 0)).getV 1 = 0x02 ∧ (ran 0x8126 (withRegs 1 0x05 2 0)).getV 0xF = 1 ∧
    (ran 0x8126 (withRegs 1 0x02 2 1)).getV 0xF = 0 := by decide
theorem test_shiftRight_vy :
    (ran 0x8126 ((withParams .fault .vy).setV 2 3)).getV 1 = 0x01 ∧
    (ran 0x8126 ((withParams .fault .vy).setV 2 3)).getV 0xF = 1 ∧
    (ran 0x8126 ((withParams .fault .vy).setV 2 3)).getV 2 = 3 := by decide
theorem test_reverseSub :
    (ran 0x8127 (withRegs 1 10 2 5)).getV 1 = 0xFB ∧ (ran 0x8127 (withRegs 1 10 2 5)).getV 0xF = 0 ∧
    (ran 0x8127 (withRegs 1 5 2 10)).getV 1 = 5 ∧ (ran 0x8127 (withRegs 1 7 2 7)).getV 0xF = 1 := by decide
theorem test_shiftLeft :
    (ran 0x812E (withRegs 1 0x81 2 0)).getV 1 = 0x02 ∧ (ran 0x812E (withRegs 1 0x81 2 0)).getV 0xF = 1 ∧
    (ran 0x8FFE (withRegs 0xF 0x80 1 0)).getV 0xF = 1 := by decide
theorem test_shiftLeft_vy :
    (ran 0x812E ((withParams .fault .vy).setV 2 0x81)).getV 1 = 0x02 ∧
    (ran 0x812E ((withParams .fault .vy).setV 2 0x81)).getV 0xF = 1 := by decide
/-- rand8 = 0xB7 and 0x5A. -/
theorem test_random :
    (after (execRandomWith 0xB7 3 0x0F State.reset)).getV 3 = 0x07 ∧
    (after (execRandomWith 0x5A 3 0xFF State.reset)).getV 3 = 0x5A ∧
    (after (execRandomWith 0x5A 3 0x00 State.reset)).getV 3 = 0x00 := by decide

/-! ## Index register and memory (95_test_vectors.md 2.6) -/

theorem test_loadIndex : (ran 0xAFFF State.reset).index = 0xFFF := by decide
theorem test_addIndex :
    (ran 0xF21E ((State.reset.setIndex 0xFFA).setV 2 0x10)).index = 0x100A ∧
    (ran 0xF01E (State.reset.setIndex 0xFFFF)).index = 0xFFFF ∧
    faultKind (ran 0xF01E ((State.reset.setIndex 0xFFFF).setV 0 1)) = some .indexOverflow := by decide
theorem test_fontAddr :
    (ran 0xF429 (State.reset.setV 4 0xA)).index = 50 ∧ (ran 0xF429 (State.reset.setV 4 0xFF)).index = 1275 := by decide
theorem test_storeBcd :
    (ran 0xF033 ((State.reset.setIndex 0x300).setV 0 156)).mem.readBlock 0x300 3 = [1, 5, 6] ∧
    (ran 0xF033 ((State.reset.setIndex 0x300).setV 0 9)).mem.readBlock 0x300 3 = [0, 0, 9] ∧
    (ran 0xF033 ((State.reset.setIndex 0xFFD).setV 0 123)).mem.readBlock 0xFFD 3 = [1, 2, 3] := by decide
theorem test_storeBcd_fault :
    faultKind (ran 0xF033 ((State.reset.setIndex 0xFFE).setV 0 123)) = some (.memoryOutOfRange 0x1000) ∧
    (ran 0xF033 ((State.reset.setIndex 0xFFE).setV 0 123)).mem.read 0xFFE = 0 := by decide
theorem test_storeRegs :
    (ran 0xF255 (((withRegs 0 1 1 2).setV 2 3).setIndex 0x400)).mem.readBlock 0x400 4 = [1, 2, 3, 0] ∧
    (ran 0xF255 (((withRegs 0 1 1 2).setV 2 3).setIndex 0x400)).index = 0x403 ∧
    (ran 0xFF55 (State.reset.setIndex 0xFF0)).index = 0x1000 := by decide
theorem test_storeRegs_fault :
    faultKind (ran 0xF055 (State.reset.setIndex 0x1000)) = some (.memoryOutOfRange 0x1000) := by decide
theorem test_loadRegs :
    let s := (State.reset.setMem (State.reset.mem.writeBlock 0x300 [1, 5, 6, 7])).setIndex 0x300
    (ran 0xF265 s).getV 0 = 1 ∧ (ran 0xF265 s).getV 1 = 5 ∧ (ran 0xF265 s).getV 2 = 6 ∧
      (ran 0xF265 s).getV 3 = 0 ∧ (ran 0xF265 s).index = 0x303 := by decide
theorem test_loadRegs_fault :
    faultKind (ran 0xF265 (State.reset.setIndex 0xFFE)) = some (.memoryOutOfRange 0x1000) ∧
    faultKind (ran 0xF065 (State.reset.setIndex 0x2000)) = some (.memoryOutOfRange 0x2000) := by decide

/-! ## Compositor and display (95_test_vectors.md E4 and 2.7) -/

/-- S2: the first of two identical draws erases one pixel and lights one, the second restores the framebuffer. -/
theorem test_draw_twice :
    (fbDraw (onePixel 0 0) 0 0 [0xC0]).collision = true ∧
    (fbDraw (onePixel 0 0) 0 0 [0xC0]).fb = onePixel 1 0 ∧
    (fbDraw (onePixel 1 0) 0 0 [0xC0]).fb = onePixel 0 0 ∧
    (fbDraw (onePixel 1 0) 0 0 [0xC0]).collision = true := by decide +kernel
/-- S4, S5, S6. -/
theorem test_draw_wraps :
    lit (fbDraw fbClear 63 31 [0xC0, 0xC0]).fb = 4 ∧ (fbDraw fbClear 63 31 [0xC0, 0xC0]).fb.pixel 0 0 = true ∧
    (fbDraw fbClear 70 40 [0x80]).fb = onePixel 6 8 ∧
    lit (fbDraw fbClear 60 30 [0xFF, 0x81]).fb = 10 ∧
    (fbDraw fbClear 60 30 [0xFF, 0x81]).fb.pixel 3 31 = true ∧
    (fbDraw fbClear 60 30 [0xFF, 0x81]).fb.pixel 60 31 = true := by decide +kernel
/-- S7, S8. -/
theorem test_draw_third_row_collides :
    (fbDraw (onePixel 5 2) 0 0 [0x00, 0x00, 0x04]).collision = true ∧
    (fbDraw (onePixel 5 2) 0 0 [0x00, 0x00, 0x04]).fb = fbClear ∧
    fbDraw fbClear 0 0 [] = ⟨fbClear, false⟩ := by decide +kernel
theorem test_clearScreen :
    (ran 0x00E0 ((State.reset.setFb (onePixel 5 2)).setV 0xF 1)).fb = fbClear ∧
    (ran 0x00E0 ((State.reset.setFb (onePixel 5 2)).setV 0xF 1)).getV 0xF = 1 := by decide +kernel
/-- Glyph 0 of the font, and the coordinate read from the old VF. -/
theorem test_draw_glyph :
    lit (ran 0xD005 State.reset).fb = 14 ∧ (ran 0xD005 State.reset).fb.pixel 3 4 = true ∧
    (ran 0xD005 State.reset).fb.pixel 1 1 = false ∧
    (ran 0xDF01 ((withRegs 0xF 10 0 5).setIndex 45)).fb.pixel 10 5 = true ∧
    (ran 0xDF01 ((withRegs 0xF 10 0 5).setIndex 45)).getV 0xF = 0 := by decide +kernel
theorem test_draw_range :
    faultKind (ran 0xD012 (State.reset.setIndex 0xFFF)) = some (.memoryOutOfRange 0x1000) ∧
    faultKind (ran 0xD011 (State.reset.setIndex 0xFFF)) = none ∧
    (ran 0xD000 ((State.reset.setIndex 0xFFFF).setV 0xF 0x33)).getV 0xF = 0 := by decide +kernel

/-! ## Timers, keys and the loop (95_test_vectors.md E7, 2.8; 60_exceptions.md R317, R318, R325) -/

theorem test_readDelay :
    (ran 0xF107 (State.reset.setDelay 9)).getV 1 = 9 ∧ (ran 0xF107 (State.reset.setDelay 9)).delay = 8 := by decide
theorem test_setDelay :
    (ran 0xF015 (State.reset.setV 0 10)).delay = 9 ∧ (ran 0xF015 State.reset).delay = 0 := by decide
theorem test_setSound : (ran 0xF218 (State.reset.setV 2 0xFF)).sound = 0xFE := by decide
theorem test_waitKey :
    (ran 0xF20A (withKeys (keys [9, 7]))).getV 2 = 7 ∧ (ran 0xF20A (withKeys (keys [0, 15]))).getV 2 = 0 ∧
    (ran 0xFF0A (withKeys (keys [15]))).getV 0xF = 15 := by decide
/-- E7: a blocked cycle changes no timer. -/
theorem test_waitKey_blocks :
    (ran 0xF30A (State.reset.setDelay 5)).returned = some .blockForIO ∧
    (ran 0xF30A (State.reset.setDelay 5)).delay = 5 ∧ (ran 0xF30A (State.reset.setDelay 5)).pc = 0x200 := by decide
theorem test_key_characters :
    keyOfChar .ignored '7' = some 7 ∧ keyOfChar .ignored 'f' = some 15 ∧ keyOfChar .ignored 'A' = none ∧
    keyOfChar .accepted 'A' = some 10 ∧ keyOfChar .accepted 'g' = none := by decide
/-- A key of the schedule reaches the snapshot of its own step, and the completed step clears the keypad. -/
theorem test_step_key :
    let s := { State.reset.withFetchWord 16 0xF20A with inputs := [⟨['c'], ['1']⟩] }
    (after (step s)).getV 2 = 0xC ∧ (after (step s)).keypad = clearAll ∧ (after (step s)).inputs = [] := by decide +kernel
/-- A key that arrives during a blocked step is kept for the next one. -/
theorem test_step_key_kept :
    let s := { State.reset.withFetchWord 16 0xF20A with inputs := [⟨[], ['1']⟩] }
    (after (step s)).returned = some .blockForIO ∧ (after (step s)).keypad = keys [1] := by decide +kernel
/-- The listener's step sets a slot and never clears it. -/
theorem test_listener_step :
    (listenerStep 0xC State.reset).keypad = keys [0xC] ∧
    (listenerStep 0xC (listenerStep 0xC State.reset)).keypad = keys [0xC] := by decide
/-- A prescribed iteration has the characters prescribed; past the end they are free, a new value each iteration. -/
theorem test_free_schedule :
    currentInput { State.reset with inputs := [⟨['c'], []⟩] } = ⟨['c'], []⟩ ∧
    currentInput State.reset = Config.keyInput 0 ∧
    currentInput (after (step (State.reset.withFetchWord 16 0x6000))) = Config.keyInput 1 := ⟨rfl, rfl, rfl⟩
theorem test_withFetchWord_runs : (after (step (State.reset.withFetchWord 16 0x6B07))).getV 0xB = 7 := by decide +kernel
/-- Boot: E1 for a short ROM, and the font of R52 at reset. -/
theorem test_boot :
    State.reset.mem.readBlock 0 5 = [0xF0, 0x90, 0x90, 0x90, 0xF0] ∧
    State.reset.mem.readBlock 75 6 = [0xF0, 0x80, 0xF0, 0x80, 0x80, 0x00] ∧
    loadRom [] State.reset = .loaded State.reset := by decide +kernel

/-! ## Witnesses: a concrete input that meets all hypotheses of a statement together, clause by clause -/

theorem fetches_at {s : State} {i : Instr} (h : s.status = .running ∧ s.pc.toNat ≤ 4094 ∧
    (s.pc.toNat % 2 = 0 ∨ s.params.oddPcFetch = .read) ∧ decode (wordAtPc s) = .instr i) : Fetches s i :=
  ⟨h.1, ⟨h.2.1, h.2.2.1⟩, h.2.2.2⟩

theorem lastWord_pc (w : Nat) : (lastWord w).pc = 4094 := rfl

/-- The last word that can be fetched is fetched, at pc = 4094. -/
theorem fetches_lastWord {w : Nat} {i : Instr} (h : decode (wordAtPc (lastWord w)) = .instr i) :
    Fetches (lastWord w) i :=
  ⟨rfl, ⟨by rw [lastWord_pc]; decide, .inl (by rw [lastWord_pc]; decide)⟩, h⟩

theorem witness_DecodeOfEncodeIsTheInstruction : (Instr.draw 15 15 0xF).wellFormed = true := by decide
theorem witness_EncodeOfDecodeIsTheWord : decode 0xD12F = .instr (.draw 1 2 0xF) := by decide
theorem witness_DecodeErrorsAreTheIllegalWords : decode 0xF175 = .error 0xF175 ∧ IllegalWord 0xF175 := by
  unfold IllegalWord
  decide
theorem witness_StepRunsTheDecodedInstruction :
    (Instr.jump 0xFFF).wellFormed = true ∧ Fetches (lastWord 0x1FFF) (.jump 0xFFF) :=
  ⟨by decide, fetches_lastWord (by decide)⟩
theorem witness_FetchAndDecodeFaultsInOrder :
    4094 < (atPc 4095).pc.toNat ∧
    ((atPc 4093).pc.toNat ≤ 4094 ∧ (atPc 4093).pc.toNat % 2 = 1 ∧ (atPc 4093).params.oddPcFetch = .fault) ∧
    (Fetchable (lastWord 0xFFFF) ∧ IllegalWord (wordAtPc (lastWord 0xFFFF)).toNat) :=
  ⟨by decide, by decide, ⟨by decide, .inl (by decide)⟩, by unfold IllegalWord; decide⟩
theorem witness_FaultedStateIsPreciseAndFinal :
    State.reset.status = .running ∧ step State.reset = .next (after (step State.reset)) ∧
    (after (step State.reset)).status = .faulted ⟨.decodeError 0x0000, 0x200⟩ :=
  ⟨rfl, next_after (by decide), by decide⟩
theorem witness_OnlyAnEmptyKeyWaitBlocks :
    executeOne (lastWord 0xFF0A) = .next (after (executeOne (lastWord 0xFF0A))) ∧
    (after (executeOne (lastWord 0xFF0A))).returned = some .blockForIO :=
  ⟨next_after (by decide), by decide⟩
/-- One witness for each of the clauses: FX15, FX18, FX07 and another instruction. -/
theorem witness_CompletedStepCountsTimersDown :
    ∀ w ∈ [0xF015, 0xF018, 0xF007, 0x6000], ∃ i, Fetches (lastWord w) i ∧
      executeOne (lastWord w) = .next (after (executeOne (lastWord w))) ∧
      (after (executeOne (lastWord w))).returned ≠ some .blockForIO ∧
      (after (executeOne (lastWord w))).status = (lastWord w).status := by
  intro w hw
  simp only [List.mem_cons, List.not_mem_nil, or_false] at hw
  rcases hw with rfl | rfl | rfl | rfl
  · exact ⟨.setDelay 0, fetches_lastWord (by decide), next_after (by decide), by decide, by decide⟩
  · exact ⟨.setSound 0, fetches_lastWord (by decide), next_after (by decide), by decide, by decide⟩
  · exact ⟨.readDelay 0, fetches_lastWord (by decide), next_after (by decide), by decide, by decide⟩
  · exact ⟨.loadImm 0 0, fetches_lastWord (by decide), next_after (by decide), by decide, by decide⟩
/-- A skip that is taken, at the last pc. -/
theorem witness_CompletedStepMovesPcByItsEffect :
    Fetches (lastWord 0x3F00) (.skipEqImm 15 0) ∧
    executeOne (lastWord 0x3F00) = .next (after (executeOne (lastWord 0x3F00))) ∧
    (after (executeOne (lastWord 0x3F00))).returned = some .continued ∧ Instr.skipEqImm 15 0 ≠ .ret ∧
    ∀ a, Instr.skipEqImm 15 0 ≠ .jump a ∧ Instr.skipEqImm 15 0 ≠ .call a ∧ Instr.skipEqImm 15 0 ≠ .jumpV0 a :=
  ⟨fetches_lastWord (by decide), next_after (by decide), by decide, nofun, fun _ => ⟨nofun, nofun, nofun⟩⟩
theorem reset_inv : State.reset.Inv :=
  ⟨by decide, by decide, (fun a h => by cases h), by decide, (fun f h => by cases h)⟩
/-- A state with a full stack and the highest pc. -/
theorem witness_EveryStepKeepsTheStateInvariant :
    ((atPc 4350).setStack (List.replicate 16 4096)).Inv ∧
    step ((atPc 4350).setStack (List.replicate 16 4096)) =
      .next (after (step ((atPc 4350).setStack (List.replicate 16 4096)))) :=
  ⟨⟨by decide, by decide, fun a h => by rw [List.eq_of_mem_replicate h]; decide, by decide, fun f h => by cases h⟩,
    next_after (by decide)⟩
theorem witness_ResetMeetsTheStateInvariant :
    loadRom [0x60, 0x05] (powerOn defaultParams (Vector.replicate 80 0#8)) =
      .loaded ((powerOn defaultParams (Vector.replicate 80 0#8)).setMem
        ((powerOn defaultParams (Vector.replicate 80 0#8)).mem.writeBlock 512 [0x60, 0x05])) := rfl
theorem witness_RunningStepReturnsExactlyOneStatus : State.reset.status = .running := rfl
theorem witness_ReturnPopsIntoPc :
    (State.reset.setStack [0x300, 0x1000]).stack = [0x300] ++ [0x1000] ∧ State.reset.stack = [] := by decide
theorem witness_CallPushesTheReturnAddress :
    ((atPc 4094).pc.toNat ≤ 4094 ∧ ((atPc 4094).setStack (List.replicate 15 0x202)).stack.length < 16) ∧
    ((atPc 4094).setStack (List.replicate 16 0x202)).stack.length = 16 := by decide
theorem witness_CallThenReturnComesBack :
    (atPc 4094).pc.toNat ≤ 4094 ∧
    exec (.call 0x300) (atPc 4094) = .next (after (exec (.call 0x300) (atPc 4094))) ∧
    (after (exec (.call 0x300) (atPc 4094))).returned = some .continued ∧
    (State.reset.setStack [0x1000]).stack = (after (exec (.call 0x300) (atPc 4094))).stack :=
  ⟨by decide, next_after (by decide), by decide, by decide⟩
theorem pc_premise : (atPc 4094).pc.toNat ≤ 4094 := by decide
/-- At the last pc that can be fetched from, with an equal and with another register. -/
theorem witness_ImmediateSkips :
    (atPc 4094).pc.toNat ≤ 4094 ∧ (atPc 4094).getV 15 = 0x00 ∧ (atPc 4094).getV 15 ≠ 0xFF := by decide
theorem witness_RegisterSkips :
    ((atPc 4094).setV 15 7).pc.toNat ≤ 4094 ∧ ((atPc 4094).setV 15 7).getV 14 ≠ ((atPc 4094).setV 15 7).getV 15 ∧
    ((atPc 4094).setV 15 7).getV 13 = ((atPc 4094).setV 15 7).getV 14 := by decide
theorem witness_LoadsAndCopies : (atPc 4094).pc.toNat ≤ 4094 := pc_premise
theorem witness_AddImmediateWrapsWithoutFlag : (atPc 4094).pc.toNat ≤ 4094 := pc_premise
theorem witness_LogicResultsBitByBit : (atPc 4094).pc.toNat ≤ 4094 := pc_premise
theorem witness_AddWithCarry : (atPc 4094).pc.toNat ≤ 4094 ∧ (14 : Reg) ≠ vf := by decide
theorem witness_SubtractWithNotBorrow : (atPc 4094).pc.toNat ≤ 4094 ∧ (14 : Reg) ≠ vf := by decide
theorem witness_RandomIsTheDrawMasked : (atPc 4094).pc.toNat ≤ 4094 := pc_premise
theorem witness_LoadIndexAndFontAddress : (atPc 4094).pc.toNat ≤ 4094 := pc_premise
theorem witness_ClearScreenClearsEveryPixel : (atPc 4094).pc.toNat ≤ 4094 := pc_premise
theorem witness_TimerInstructions : (atPc 4094).pc.toNat ≤ 4094 := pc_premise
theorem witness_KeySkips :
    ((atPc 4094).setV 5 15).pc.toNat ≤ 4094 ∧ (((atPc 4094).setV 5 15).getV 5).toNat = (15 : Fin 16).val := by decide
theorem witness_KeyIndexAbove15Faults :
    15 < ((State.reset.setV 5 16).getV 5).toNat ∧ 15 < ((State.reset.setV 5 255).getV 5).toNat := by decide
/-- For `SHIFT_SOURCE = VX` and for `SHIFT_SOURCE = VY`. -/
theorem witness_ShiftsByOneForEitherSource :
    ∀ src ∈ [Config.ShiftSource.vx, .vy], ∃ b : Byte,
      (withParams .fault src).pc.toNat ≤ 4094 ∧
      ((withParams .fault src).params.shiftSource = .vx → b = ((withParams .fault src).setV 2 3).getV 1) ∧
      ((withParams .fault src).params.shiftSource = .vy → b = ((withParams .fault src).setV 2 3).getV 2) := by
  intro src hs
  simp only [List.mem_cons, List.not_mem_nil, or_false] at hs
  rcases hs with rfl | rfl
  · exact ⟨0, by decide⟩
  · exact ⟨3, by decide⟩
theorem witness_AddIndexIsExact :
    (((atPc 4094).setIndex 0xFF00).setV 0 0xFF).pc.toNat ≤ 4094 ∧
    (((atPc 4094).setIndex 0xFF00).setV 0 0xFF).index.toNat + ((((atPc 4094).setIndex 0xFF00).setV 0 0xFF).getV 0).toNat
      = 0xFFFF ∧
    0xFFFF < ((State.reset.setIndex 0xFF01).setV 0 0xFF).index.toNat +
      (((State.reset.setIndex 0xFF01).setV 0 0xFF).getV 0).toNat := by decide
/-- The highest I whose three bytes exist. -/
theorem witness_StoreBcdWritesThreeDigits :
    ((atPc 4094).setIndex 0xFFD).mem.wf ∧ ((atPc 4094).setIndex 0xFFD).pc.toNat ≤ 4094 ∧
    ((atPc 4094).setIndex 0xFFD).index.toNat + 2 ≤ 4095 := by decide
/-- The highest I for the whole register file, which is also LoadRegsReadsTheBlock's. -/
theorem witness_StoreRegsWritesTheBlock :
    ((atPc 4094).setIndex 0xFF0).mem.wf ∧ ((atPc 4094).setIndex 0xFF0).pc.toNat ≤ 4094 ∧
    ((atPc 4094).setIndex 0xFF0).index.toNat + (15 : Reg).val ≤ 4095 := by decide
theorem witness_LoadRegsReadsTheBlock :
    ((atPc 4094).setIndex 0xFFF).pc.toNat ≤ 4094 ∧
    ((atPc 4094).setIndex 0xFFF).index.toNat + (0 : Reg).val ≤ 4095 := by decide
/-- The lowest I that each clause covers, and the highest. -/
theorem witness_BlockBeyondMemoryFaults :
    4095 < (State.reset.setIndex 0xFFE).index.toNat + 2 ∧
    4095 < (State.reset.setIndex 0x1000).index.toNat + (0 : Reg).val ∧
    4095 < (State.reset.setIndex 0xFF1).index.toNat + (15 : Reg).val ∧
    (0 < (2 : Nibble).toNat ∧ 4095 < (State.reset.setIndex 0xFFF).index.toNat + (2 : Nibble).toNat - 1) ∧
    4095 < (State.reset.setIndex 0xFFFF).index.toNat + 2 := by decide
theorem witness_StoreThenLoadRestoresRegisters :
    (State.reset.setIndex 0xFF0).mem.wf ∧
    exec (.storeRegs 15) (State.reset.setIndex 0xFF0) =
      .next (after (exec (.storeRegs 15) (State.reset.setIndex 0xFF0))) ∧
    (after (exec (.storeRegs 15) (State.reset.setIndex 0xFF0))).returned = some .continued ∧
    ((after (exec (.storeRegs 15) (State.reset.setIndex 0xFF0))).setIndex 0xFF0).mem =
      (after (exec (.storeRegs 15) (State.reset.setIndex 0xFF0))).mem ∧
    ((after (exec (.storeRegs 15) (State.reset.setIndex 0xFF0))).setIndex 0xFF0).index =
      (State.reset.setIndex 0xFF0).index :=
  ⟨by decide, next_after (by decide), by decide, rfl, rfl⟩
/-- Program (g): V0 and V1 are stored at 0x208 and run from there, after a store elsewhere. -/
theorem witness_StoredCodeIsFetched :
    let s := (withRegs 0 0x12 1 0x08).setIndex 0x208
    let t := after (exec (.storeRegs 1) s)
    let u := { t.setMem (t.mem.write 0x300 7) with pc := 0x208 }
    s.mem.wf ∧ t.returned = some .continued ∧ u.mem.read u.pc.toNat = t.mem.read u.pc.toNat ∧
      u.mem.read (u.pc.toNat + 1) = t.mem.read (u.pc.toNat + 1) ∧ exec (.storeRegs 1) s = .next t ∧
      (0 : Reg).val + 1 ≤ (1 : Reg).val ∧ u.pc.toNat = s.index.toNat + (0 : Reg).val :=
  ⟨by decide, by decide, by decide, by decide, next_after (by decide), by decide, by decide⟩
/-- The FX33 clauses, at the last two words of memory. -/
theorem witness_StoredCodeIsFetched_digits :
    let s := (State.reset.setV 0 255).setIndex 0xFFD
    let t := after (exec (.storeBcd 0) s)
    s.mem.wf ∧ t.returned = some .continued ∧ exec (.storeBcd 0) s = .next t ∧
      { t with pc := 0xFFD }.pc.toNat = s.index.toNat ∧ { t with pc := 0xFFE }.pc.toNat = s.index.toNat + 1 :=
  ⟨by decide, by decide, next_after (by decide), by decide, by decide⟩
/-- Without a row, whatever I; and with 15 rows, at the highest I. -/
theorem witness_DrawXorsTheSpriteIntoThePixels :
    (atPc 4094).pc.toNat ≤ 4094 ∧ (0 : Nibble).toNat = 0 ∧
    ((atPc 4094).setIndex 0xFF1).index.toNat + (15 : Nibble).toNat - 1 ≤ 4095 ∧
    Lands 63 31 7 14 6 13 := by
  unfold Lands
  decide
/-- A sprite of 15 rows: its last row has a 1 and a 0 bit, and its last column wraps. -/
theorem witness_SequentialDrawEqualsRowParallelDatapath :
    (List.replicate 15 (0x81 : Byte)).length ≤ 15 ∧ (List.replicate 15 (0x81 : Byte))[14]? = some 0x81 ∧
    Lands 63 31 7 14 6 13 ∧ (0x81 : Byte).getLsbD (7 - 6) = false := by
  unfold Lands
  decide
theorem witness_CollisionIffAPixelIsErased :
    (List.replicate 15 (0x81 : Byte)).length ≤ 15 ∧ (List.replicate 15 (0x81 : Byte))[14]? = some 0x81 ∧
    Lands 63 31 6 14 5 13 ∧ (0x81 : Byte).getLsbD (7 - 6) = false := by
  unfold Lands
  decide
theorem witness_DrawingTwiceRestoresTheFramebuffer : (List.replicate 15 (0x81 : Byte)).length ≤ 15 := by decide
theorem witness_DrawWrapsTheStart :
    (255 : Byte).toNat % 64 = (63 : Byte).toNat % 64 ∧ (255 : Byte).toNat % 32 = (31 : Byte).toNat % 32 := by decide
/-- The first clause at the lowest and the highest key, and the second with no key. -/
theorem witness_WaitKeyTakesTheLowestOrBlocks :
    (withKeys (keys [0, 15])).pc.toNat ≤ 4094 ∧ (withKeys (keys [0, 15])).snapshot[(0 : Fin 16).val] = true ∧
    ((withKeys (keys [15])).snapshot[(15 : Fin 16).val] = true ∧
      ∀ j : Fin 16, j < 15 → (withKeys (keys [15])).snapshot[j.val] = false) ∧
    ∀ k : Fin 16, State.reset.snapshot[k.val] = false := by decide
/-- FX15 with V0 = 255, one blocked FX0A, one completed 6XNN, then FX07. The program lies at 0x200. -/
def delayProgram : State :=
  { (State.reset.setV 0 255) with
    mem := State.reset.mem.writeBlock 0x200 [0xF0, 0x15, 0xF2, 0x0A, 0xF1, 0x07]
    inputs := [⟨[], []⟩, ⟨[], []⟩, ⟨['7'], []⟩] }
theorem witness_DelayReadAfterCompletedSteps :
    let u := after (step delayProgram)
    let b := after (step u)
    let t := after (step b)
    Fetches delayProgram (.setDelay 0) ∧ step delayProgram = .next u ∧ DelayRun 1 u t ∧
      Fetches t (.readDelay 1) ∧ step t = .next (after (step t)) := by
  refine ⟨fetches_at (by decide +kernel), next_after (by decide +kernel), ?_, fetches_at (by decide +kernel),
    next_after (by decide +kernel)⟩
  have hw : decode (wordAtPc (after (step (after (step delayProgram))))) = .instr (.waitKey 2) := by decide +kernel
  refine .blocked (next_after (by decide +kernel)) (by decide +kernel)
    (.completed (next_after (by decide +kernel)) (by decide +kernel) (fun x hf => ?_) (.start _))
  have h := hf.2.2
  rw [hw] at h
  cases h
theorem witness_SoundIsReadByNothing :
    step State.reset = .next (after (step State.reset)) ∧
    step (after (step State.reset)) = .fault (.stopped ⟨.decodeError 0x0000, 0x200⟩) :=
  ⟨next_after (by decide), rfl⟩
theorem witness_InputsAreReadOnlyWhereTheSpecSays :
    exec (.loadImm 1 5) State.reset = .next (after (exec (.loadImm 1 5) State.reset)) ∧
    ¬ ReadsKeys (.loadImm 1 5) ∧ ∀ x nn, Instr.loadImm 1 5 ≠ .random x nn := by
  refine ⟨rfl, ?_, fun x nn h => by cases h⟩
  rintro ⟨x, h | h | h⟩ <;> cases h
/-- A step that completes, and one that blocks because no key is prescribed. -/
theorem witness_KeypadFollowsTheSchedulerIteration :
    let b := { lastWord 0xF00A with inputs := [⟨[], ['1']⟩] }
    (lastWord 0x6000).status = .running ∧ step (lastWord 0x6000) = .next (after (step (lastWord 0x6000))) ∧
    (after (step (lastWord 0x6000))).returned = some .continued ∧
    b.status = .running ∧ step b = .next (after (step b)) ∧ (after (step b)).returned ≠ some .continued :=
  ⟨rfl, next_after (by decide), by decide, rfl, next_after (by decide), by decide⟩
theorem witness_KeyCharactersMapToKeys :
    keyOfChar .ignored '9' = some 9 ∧ keyOfChar .ignored 'a' = some 10 ∧ keyOfChar .accepted 'F' = some 15 := by decide
/-- The longest ROM that loads, the shortest that does not, and the empty one. -/
theorem witness_RomLoadsVerbatimOrNotAtAll :
    State.reset.mem.wf ∧ (List.replicate 3584 (0 : Byte)).length ≤ 3584 ∧
    3584 < (List.replicate 3585 (0 : Byte)).length ∧ loadRom [] State.reset = .loaded State.reset :=
  ⟨by decide, Nat.le_of_eq (List.length_replicate ..), (List.length_replicate ..).symm ▸ Nat.lt_succ_self 3584, rfl⟩
theorem witness_PowerOnPlacesFontAndParameters : 79 < 80 ∧ 80 ≤ 80 ∧ 80 ≤ 4095 := by decide
/-- FX33 at the highest I changes the last byte of memory. -/
theorem witness_OnlyStoresChangeMemory :
    let s := ((lastWord 0xF033).setIndex 0xFFD).setV 0 9
    executeOne s = .next (after (executeOne s)) ∧ (after (executeOne s)).mem.read 0xFFF ≠ s.mem.read 0xFFF :=
  ⟨next_after (by decide), by decide⟩
theorem witness_OnlyTheCompositorChangesPixels :
    let s := lastWord 0xD015
    executeOne s = .next (after (executeOne s)) ∧ (after (executeOne s)).fb.pixel 0 0 ≠ s.fb.pixel 0 0 :=
  ⟨next_after (by decide +kernel), by decide +kernel⟩
/-- One step for each clause: a register, I, the stack. -/
theorem witness_RegistersIndexAndStackHaveTheirWriters :
    (executeOne (lastWord 0x6F01) = .next (after (executeOne (lastWord 0x6F01))) ∧
      (after (executeOne (lastWord 0x6F01))).getV 15 ≠ (lastWord 0x6F01).getV 15) ∧
    (executeOne (lastWord 0xAFFF) = .next (after (executeOne (lastWord 0xAFFF))) ∧
      (after (executeOne (lastWord 0xAFFF))).index ≠ (lastWord 0xAFFF).index) ∧
    (executeOne (lastWord 0x2300) = .next (after (executeOne (lastWord 0x2300))) ∧
      (after (executeOne (lastWord 0x2300))).stack ≠ (lastWord 0x2300).stack) :=
  ⟨⟨next_after (by decide), by decide⟩, ⟨next_after (by decide), by decide⟩, next_after (by decide), by decide⟩

/-- A step for the first half; for the second, Toggles before a loop step that completes, and after one that blocks. -/
theorem witness_StepIsTheInterleavingOfItsTwoAgents :
    step (lastWord 0xFF0A) = .next (after (step (lastWord 0xFF0A))) ∧
    loopStep (listenerSteps [15, 0] (lastWord 0xFF0A)) =
      .next (after (loopStep (listenerSteps [15, 0] (lastWord 0xFF0A)))) ∧
    (after (loopStep (listenerSteps [15, 0] (lastWord 0xFF0A)))).returned = some .continued ∧
    loopStep (lastWord 0xFF0A) = .next (after (loopStep (lastWord 0xFF0A))) ∧
    (after (loopStep (lastWord 0xFF0A))).returned ≠ some .continued :=
  ⟨next_after (by decide), next_after (by decide), by decide, next_after (by decide), by decide⟩
theorem witness_ListenerStepTogglesOneKey :
    (0 : Fin 16) ≠ 15 ∧ State.reset.Inv ∧
    loopStep (listenerStep 15 State.reset) = .next (after (loopStep (listenerStep 15 State.reset))) :=
  ⟨by decide, reset_inv, next_after (by decide)⟩
theorem witness_WaitingEndsExactlyByAToggle :
    Fetches (lastWord 0xFF0A) (.waitKey 15) ∧ ∀ k : Fin 16, (lastWord 0xFF0A).keypad[k.val] = false :=
  ⟨fetches_lastWord (by decide), by decide⟩

end Sys2Proof.Tests
end

/-! # The action of an instruction

Every answer of `exec` in one normal form: an `Action` names the fault or the effect with the single-field writes of an
instruction. `exec_acts` finds it once for each instruction, says which writes it may hold, and says that it does not
depend on the sound timer, nor on the snapshot and the draw counter but where the spec lets the instruction read them.
The statements about who writes and who reads a piece of state follow from it (10_state.md R20 to R34). -/

namespace Sys2Proof.Machine

/-! ## Writes and actions -/

/-- A write to one piece of the state. -/
inductive Write where
  | reg (x : Reg) (b : Byte)
  | regs (v : Vector Byte 16)
  | index (w : Word)
  | stack (l : List Word)
  | delay (b : Byte)
  | sound (b : Byte)
  | fb (f : Framebuffer)
  | mem (m : Memory)
  | draw

/-- The model's operation that makes the write. -/
def Write.apply : Write → State → State
  | .reg x b, s => s.setV x b
  | .regs v, s => s.setRegs v
  | .index w, s => s.setIndex w
  | .stack l, s => s.setStack l
  | .delay b, s => s.setDelay b
  | .sound b, s => s.setSound b
  | .fb f, s => s.setFb f
  | .mem m, s => s.setMem m
  | .draw, s => s.countDraw

/-- The writes of an instruction, in their order. -/
def applyAll (ws : List Write) (s : State) : State := ws.foldl (fun u w => w.apply u) s

/-- What an instruction does at a state: it raises a fault, or it makes its writes and completes with its effect. -/
inductive Action where
  | fault (k : FaultKind)
  | done (e : Effect) (ws : List Write)

/-- The state that the action leaves. -/
def Action.run : Action → State → State
  | .fault k, s => faultState k s
  | .done e ws, s => finish e (applyAll ws s)

/-- A property that the start has and every write keeps holds after all writes. -/
theorem applyAll_induct {P : State → Prop} {ws : List Write} {s : State} (start : P s)
    (step : ∀ w ∈ ws, ∀ u, P u → P (w.apply u)) : P (applyAll ws s) :=
  List.foldlRecOn ws _ start fun u hu w hw => step w hw u hu

theorem Write.apply_wrote (w : Write) {s u : State} (h : Wrote s u) : Wrote s (w.apply u) := by
  cases w <;> exact ⟨h.pc, h.status, h.host⟩

theorem applyAll_wrote (ws : List Write) (s : State) : Wrote s (applyAll ws s) :=
  applyAll_induct (wrote_refl s) fun w _ _ => w.apply_wrote

/-! ## The fields that few instructions read -/

/-- `s` with another sound timer, snapshot and draw counter. -/
def State.withUnread (s : State) (b : Byte) (K : Keypad) (n : Nat) : State :=
  { s with sound := b, snapshot := K, draws := n }

/-- What becomes of the sound timer in a write. -/
def Write.soundAfter : Write → Byte → Byte
  | .sound b, _ => b
  | _, c => c

/-- What becomes of the draw counter in a write. -/
def Write.drawsAfter : Write → Nat → Nat
  | .draw, n => n + 1
  | _, n => n

/-- What becomes of the sound timer at the end of a step. -/
def Effect.soundAfter : Effect → Byte → Byte
  | .halt, c => c
  | _, c => countDown c

/-- What becomes of the sound timer in an action. -/
def Action.soundAfter : Action → Byte → Byte
  | .fault _, c => c
  | .done e ws, c => e.soundAfter (ws.foldl (fun b w => w.soundAfter b) c)

/-- What becomes of the draw counter in an action. -/
def Action.drawsAfter : Action → Nat → Nat
  | .fault _, n => n
  | .done _ ws, n => ws.foldl (fun k w => w.drawsAfter k) n

theorem Write.apply_withUnread (w : Write) (s : State) (b : Byte) (K : Keypad) (n : Nat) :
    w.apply (s.withUnread b K n) = (w.apply s).withUnread (w.soundAfter b) K (w.drawsAfter n) := by
  cases w <;> rfl

theorem applyAll_withUnread (ws : List Write) (s : State) (b : Byte) (K : Keypad) (n : Nat) :
    applyAll ws (s.withUnread b K n) = (applyAll ws s).withUnread
      (ws.foldl (fun b w => w.soundAfter b) b) K (ws.foldl (fun k w => w.drawsAfter k) n) := by
  induction ws generalizing s b n with
  | nil => rfl
  | cons w ws ih =>
    simp only [applyAll, List.foldl_cons, Write.apply_withUnread] at ih ⊢
    exact ih ..

theorem finish_withUnread (e : Effect) (s : State) (b : Byte) (K : Keypad) (n : Nat) :
    finish e (s.withUnread b K n) = (finish e s).withUnread (e.soundAfter b) K n := by
  cases e <;> rfl

/-- An action carries each of the three fields along by itself and leaves the rest as without the change. -/
theorem Action.run_withUnread (a : Action) (s : State) (b : Byte) (K : Keypad) (n : Nat) :
    a.run (s.withUnread b K n) = (a.run s).withUnread (a.soundAfter b) K (a.drawsAfter n) := by
  cases a with
  | fault k => rfl
  | done e ws => simp only [run, applyAll_withUnread, finish_withUnread, soundAfter, drawsAfter]

theorem Action.run_sound (a : Action) (s : State) : (a.run s).sound = a.soundAfter s.sound :=
  congrArg State.sound (a.run_withUnread s s.sound s.snapshot s.draws)

theorem Action.run_snapshot (a : Action) (s : State) : (a.run s).snapshot = s.snapshot :=
  (congrArg State.snapshot (a.run_withUnread s s.sound s.snapshot s.draws)).trans rfl

theorem Action.run_draws (a : Action) (s : State) : (a.run s).draws = a.drawsAfter s.draws :=
  congrArg State.draws (a.run_withUnread s s.sound s.snapshot s.draws)

/-! ## What an instruction is let to do -/

/-- The instruction may write the stack: 00EE, 2NNN (R25). -/
def MayWriteStack (i : Instr) : Prop := i = .ret ∨ ∃ a, i = .call a

/-- The instruction drives the compositor: 00E0, DXYN (R14). -/
def MayWritePixels (i : Instr) : Prop := i = .clearScreen ∨ ∃ x y n, i = .draw x y n

/-- The instruction draws a random byte: CXNN (R34). -/
def DrawsRandom (i : Instr) : Prop := ∃ x nn, i = .random x nn

/-- A write that the instruction, executed at `s`, is let to make, with what the invariant needs of its value. -/
def Write.Allowed (i : Instr) (s : State) : Write → Prop
  | .reg x _ => MayWriteReg x i
  | .regs v => ∀ r : Reg, v[r.val] ≠ s.getV r → MayWriteReg r i
  | .index _ => MayWriteIndex i
  | .stack l => MayWriteStack i ∧ (s.stack.length ≤ 16 → l.length ≤ 16) ∧
      ∀ a ∈ l, a ∈ s.stack ∨ a = s.pc + 2#16
  | .fb _ => MayWritePixels i
  | .mem m => s.mem.wf → m.wf
  | .draw => DrawsRandom i
  | .delay _ | .sound _ => True

/-- A jump goes to an exact target or to a stacked address. -/
def Effect.Allowed (s : State) : Effect → Prop
  | .jump t => t.toNat ≤ 4350 ∨ t ∈ s.stack
  | _ => True

def Action.Allowed (i : Instr) (s : State) : Action → Prop
  | .fault _ => True
  | .done e ws => e.Allowed s ∧ ∀ w ∈ ws, w.Allowed i s

/-- `a` is what `i` does at `s`, and at every state that differs from `s` in what `i` does not read alone. -/
structure Acts (i : Instr) (s : State) (a : Action) : Prop where
  allowed : a.Allowed i s
  answers : ∀ b K n, (ReadsKeys i → K = s.snapshot) → (DrawsRandom i → n = s.draws) →
    exec i (s.withUnread b K n) = .next (a.run (s.withUnread b K n))

/-! ## The action of each instruction -/

@[simp] theorem State.withUnread_index (s : State) (b : Byte) (K : Keypad) (n : Nat) :
    (s.withUnread b K n).index = s.index := rfl

@[simp] theorem State.withUnread_stack (s : State) (b : Byte) (K : Keypad) (n : Nat) :
    (s.withUnread b K n).stack = s.stack := rfl

@[simp] theorem State.withUnread_pc (s : State) (b : Byte) (K : Keypad) (n : Nat) :
    (s.withUnread b K n).pc = s.pc := rfl

@[simp] theorem State.withUnread_snapshot (s : State) (b : Byte) (K : Keypad) (n : Nat) :
    (s.withUnread b K n).snapshot = K := rfl

@[simp] theorem State.getV_withUnread (s : State) (b : Byte) (K : Keypad) (n : Nat) (r : Reg) :
    (s.withUnread b K n).getV r = s.getV r := rfl

section
variable {i : Instr} {s : State}

/-- An instruction that moves pc and writes nothing. -/
theorem acts_effect {e : Effect} (he : e.Allowed s)
    (h : ∀ b K n, exec i (s.withUnread b K n) = complete e (s.withUnread b K n)) : ∃ a, Acts i s a :=
  ⟨.done e [], ⟨he, nofun⟩, fun b K n _ _ => h b K n⟩

/-- An instruction that makes one write and goes on to the next. -/
theorem acts_write (w : Write) (hw : w.Allowed i s)
    (h : ∀ b K n, exec i (s.withUnread b K n) = complete .increment (w.apply (s.withUnread b K n))) :
    ∃ a, Acts i s a :=
  ⟨.done .increment [w], ⟨trivial, by simpa using hw⟩, fun b K n _ _ => h b K n⟩

/-- An instruction that makes two writes and goes on to the next. -/
theorem acts_two_writes (w w' : Write) (hw : w.Allowed i s) (hw' : w'.Allowed i s)
    (h : ∀ b K n, (DrawsRandom i → n = s.draws) →
      exec i (s.withUnread b K n) = complete .increment (w'.apply (w.apply (s.withUnread b K n)))) :
    ∃ a, Acts i s a :=
  ⟨.done .increment [w, w'], ⟨trivial, by simpa using ⟨hw, hw'⟩⟩, fun b K n _ hn => h b K n hn⟩

/-- An instruction whose check fails. -/
theorem acts_fault (k : FaultKind) (h : ∀ b K n, exec i (s.withUnread b K n) = raise k (s.withUnread b K n)) :
    ∃ a, Acts i s a :=
  ⟨.fault k, trivial, fun b K n _ _ => h b K n⟩

theorem zext16_le (nnn : Addr12) : (zext16 nnn).toNat ≤ 4350 := by
  have := nnn.isLt
  rw [zext16_toNat]
  omega

theorem jumpV0Target_le (s : State) (nnn : Addr12) : (jumpV0Target s nnn).toNat ≤ 4350 := by
  have := nnn.isLt
  have := (s.getV 0).isLt
  rw [jumpV0Target_toNat]
  omega

theorem ret_acts (s : State) : ∃ a, Acts .ret s a := by
  rcases pop_cases s.stack with ⟨t, rest, hs, hp⟩ | ⟨-, hp⟩
  · refine ⟨.done (.jump t) [.stack rest], ⟨.inr (by simp [hs]), ?_⟩, fun b K n _ _ => ?_⟩
    · simp only [List.mem_singleton, forall_eq]
      exact ⟨.inl rfl, fun h => by rw [hs, List.length_append] at h; omega, fun a ha => .inl (by simp [hs, ha])⟩
    · simp only [exec, execRet, State.withUnread_stack, hp]
      rfl
  · exact acts_fault .stackUnderflow fun b K n => by simp only [exec, execRet, State.withUnread_stack, hp]

theorem call_acts (nnn : Addr12) (s : State) : ∃ a, Acts (.call nnn) s a := by
  rcases push_cases s.stack (s.pc + 2#16) with ⟨hp, hl⟩ | ⟨hp, -⟩
  · refine ⟨.done (.jump (zext16 nnn)) [.stack (s.stack ++ [s.pc + 2#16])], ⟨.inl (zext16_le nnn), ?_⟩,
      fun b K n _ _ => ?_⟩
    · simp only [List.mem_singleton, forall_eq]
      exact ⟨.inr ⟨nnn, rfl⟩, fun _ => by rw [List.length_append]; exact hl, fun a ha => by simpa using ha⟩
    · simp only [exec, execCall, State.withUnread_stack, State.withUnread_pc, hp]
      rfl
  · exact acts_fault .stackOverflow fun b K n => by
      simp only [exec, execCall, State.withUnread_stack, State.withUnread_pc, hp]

theorem addIndex_acts (x : Reg) (s : State) : ∃ a, Acts (.addIndex x) s a := by
  by_cases h : 0xFFFF < indexAddr s (s.getV x).toNat
  · exact acts_fault .indexOverflow fun b K n => if_pos h
  · exact acts_write (.index (BitVec.ofNat 16 (indexAddr s (s.getV x).toNat))) (.inr ⟨x, .inl rfl⟩)
      fun b K n => if_neg h

theorem storeBcd_acts (x : Reg) (s : State) : ∃ a, Acts (.storeBcd x) s a := by
  rcases rangeFault_cases (indexAddr s 0) 3 with ⟨h, -⟩ | ⟨h, hr⟩
  · exact acts_fault (.memoryOutOfRange (max (indexAddr s 0) 4096)) fun b K n => by
      simp only [exec, execStoreBcd, indexAddr, State.withUnread_index, h]
  · refine acts_write (.mem (s.mem.writeBlock (indexAddr s 0) (bcdDigits (s.getV x))))
      (fun hm => Memory.wf_writeBlock _ _ hm _ ?_) fun b K n => ?_
    · simp only [bcdDigits, List.length_cons, List.length_nil]
      omega
    · simp only [exec, execStoreBcd, indexAddr, State.withUnread_index, h]
      rfl

theorem storeRegs_acts (x : Reg) (s : State) : ∃ a, Acts (.storeRegs x) s a := by
  rcases rangeFault_cases (indexAddr s 0) (x.val + 1) with ⟨h, -⟩ | ⟨h, hr⟩
  · exact acts_fault (.memoryOutOfRange (max (indexAddr s 0) 4096)) fun b K n => by
      simp only [exec, execStoreRegs, indexAddr, State.withUnread_index, h]
  · refine acts_two_writes (.mem (s.mem.writeBlock (indexAddr s 0) (regBlock s x)))
      (.index (BitVec.ofNat 16 (indexAddr s (x.val + 1))))
      (fun hm => Memory.wf_writeBlock _ _ hm _ ?_) (.inr ⟨x, .inr (.inr (.inl rfl))⟩) fun b K n _ => ?_
    · rw [regBlock_length]
      omega
    · simp only [exec, execStoreRegs, indexAddr, State.withUnread_index, h]
      rfl

theorem loadRegs_acts (x : Reg) (s : State) : ∃ a, Acts (.loadRegs x) s a := by
  rcases rangeFault_cases (indexAddr s 0) (x.val + 1) with ⟨h, -⟩ | ⟨h, -⟩
  · exact acts_fault (.memoryOutOfRange (max (indexAddr s 0) 4096)) fun b K n => by
      simp only [exec, execLoadRegs, indexAddr, State.withUnread_index, h]
  · refine acts_two_writes (.regs (loadBlock s.mem (indexAddr s 0) s.v (x.val + 1)))
      (.index (BitVec.ofNat 16 (indexAddr s (x.val + 1)))) (fun r hr => ?_)
      (.inr ⟨x, .inr (.inr (.inr rfl))⟩) fun b K n _ => ?_
    · by_contra hx
      have hge : ¬ r.val < x.val + 1 := fun hlt => hx (Nat.le_of_lt_succ hlt)
      exact hr (by rw [loadBlock_getElem, if_neg hge, State.getV])
    · simp only [exec, execLoadRegs, indexAddr, State.withUnread_index, h]
      rfl

theorem draw_acts (x y : Reg) (n : Nibble) (s : State) : ∃ a, Acts (.draw x y n) s a := by
  rcases rangeFault_cases (indexAddr s 0) n.toNat with ⟨h, -⟩ | ⟨h, -⟩
  · exact acts_fault (.memoryOutOfRange (max (indexAddr s 0) 4096)) fun b K m => by
      simp only [exec, execDraw, indexAddr, State.withUnread_index, h]
  · refine acts_two_writes (.fb (fbDraw s.fb (s.getV x) (s.getV y) (spriteBytes n s)).fb)
      (.reg vf (collisionFlag (fbDraw s.fb (s.getV x) (s.getV y) (spriteBytes n s)).collision))
      (.inr ⟨x, y, n, rfl⟩) rfl fun b K m _ => ?_
    simp only [exec, execDraw, indexAddr, State.withUnread_index, h]
    rfl

/-- An instruction that reads the snapshot has its action at the states with the same snapshot. -/
theorem acts_keys (a : Action) (hi : ReadsKeys i) (ha : a.Allowed i s)
    (h : ∀ b n, exec i (s.withUnread b s.snapshot n) = .next (a.run (s.withUnread b s.snapshot n))) :
    ∃ a, Acts i s a :=
  ⟨a, ha, fun b K n hK _ => by rw [hK hi]; exact h b n⟩

theorem skipKey_acts (x : Reg) (s : State) : ∃ a, Acts (.skipKey x) s a := by
  rcases keyNumber_cases (s.getV x) with ⟨k, h, -⟩ | ⟨h, -⟩
  · refine acts_keys (.done (.skip (s.snapshot.pressed k)) []) ⟨x, .inl rfl⟩ ⟨trivial, nofun⟩ fun b n => ?_
    simp only [exec, execSkipKey, State.getV_withUnread, h]
    rfl
  · exact acts_fault (.keyIndexOutOfRange (s.getV x)) fun b K n => by
      simp only [exec, execSkipKey, State.getV_withUnread, h]

theorem skipNotKey_acts (x : Reg) (s : State) : ∃ a, Acts (.skipNotKey x) s a := by
  rcases keyNumber_cases (s.getV x) with ⟨k, h, -⟩ | ⟨h, -⟩
  · refine acts_keys (.done (.skip (!s.snapshot.pressed k)) []) ⟨x, .inr (.inl rfl)⟩ ⟨trivial, nofun⟩
      fun b n => ?_
    simp only [exec, execSkipNotKey, State.getV_withUnread, h]
    rfl
  · exact acts_fault (.keyIndexOutOfRange (s.getV x)) fun b K n => by
      simp only [exec, execSkipNotKey, State.getV_withUnread, h]

theorem waitKey_acts (x : Reg) (s : State) : ∃ a, Acts (.waitKey x) s a := by
  have reads : ReadsKeys (.waitKey x) := ⟨x, .inr (.inr rfl)⟩
  cases h : s.snapshot.lowest with
  | some k =>
    have allowed : Write.Allowed (.waitKey x) s (.reg x (BitVec.ofNat 8 k.val)) := rfl
    refine acts_keys (.done .increment [.reg x (BitVec.ofNat 8 k.val)]) reads
      ⟨trivial, by simpa using allowed⟩ fun b n => ?_
    simp only [exec, execWaitKey, waitKey, State.withUnread_snapshot, h]
    rfl
  | none =>
    refine acts_keys (.done .halt []) reads ⟨trivial, nofun⟩ fun b n => ?_
    simp only [exec, execWaitKey, waitKey, State.withUnread_snapshot, h]
    rfl

theorem random_acts (x : Reg) (nn : Byte) (s : State) : ∃ a, Acts (.random x nn) s a := by
  refine acts_two_writes (.reg x (Config.randomByte s.draws &&& nn)) .draw rfl ⟨x, nn, rfl⟩ fun b K n hn => ?_
  obtain rfl := hn ⟨x, nn, rfl⟩
  rfl

/-- An instruction of the 8XY* rows with a flag: VX, then VF. -/
theorem flag_acts (x : Reg) (r flag : Byte) (hx : MayWriteReg x i) (hf : MayWriteReg vf i)
    (h : ∀ b K n, exec i (s.withUnread b K n) = complete .increment ((s.withUnread b K n).setVFlag x r flag)) :
    ∃ a, Acts i s a :=
  acts_two_writes (.reg x r) (.reg vf flag) hx hf fun b K n _ => h b K n

end

/-- Every instruction has an action at every state. -/
theorem exec_acts (i : Instr) (s : State) : ∃ a, Acts i s a := by
  cases i with
  | ret => exact ret_acts s
  | call nnn => exact call_acts nnn s
  | jump nnn => exact acts_effect (e := .jump _) (.inl (zext16_le nnn)) fun _ _ _ => rfl
  | jumpV0 nnn => exact acts_effect (e := .jump _) (.inl (jumpV0Target_le s nnn)) fun _ _ _ => rfl
  | skipEqImm x nn => exact acts_effect (e := .skip (decide (s.getV x = nn))) trivial fun _ _ _ => rfl
  | skipNeImm x nn => exact acts_effect (e := .skip (decide (s.getV x ≠ nn))) trivial fun _ _ _ => rfl
  | skipEqReg x y => exact acts_effect (e := .skip (decide (s.getV x = s.getV y))) trivial fun _ _ _ => rfl
  | skipNeReg x y => exact acts_effect (e := .skip (decide (s.getV x ≠ s.getV y))) trivial fun _ _ _ => rfl
  | skipKey x => exact skipKey_acts x s
  | skipNotKey x => exact skipNotKey_acts x s
  | loadImm x nn => exact acts_write (.reg x nn) rfl fun _ _ _ => rfl
  | addImm x nn => exact acts_write (.reg x (sum8 (s.getV x) nn)) rfl fun _ _ _ => rfl
  | move x y => exact acts_write (.reg x (s.getV y)) rfl fun _ _ _ => rfl
  | or x y => exact acts_write (.reg x (s.getV x ||| s.getV y)) rfl fun _ _ _ => rfl
  | and x y => exact acts_write (.reg x (s.getV x &&& s.getV y)) rfl fun _ _ _ => rfl
  | xor x y => exact acts_write (.reg x (s.getV x ^^^ s.getV y)) rfl fun _ _ _ => rfl
  | readDelay x => exact acts_write (.reg x s.delay) rfl fun _ _ _ => rfl
  | addCarry x y =>
    exact flag_acts x (sum8 (s.getV x) (s.getV y)) (carryFlag (s.getV x) (s.getV y)) (.inl rfl) (.inr rfl)
      fun _ _ _ => rfl
  | subNotBorrow x y =>
    exact flag_acts x (diff8 (s.getV x) (s.getV y)) (notBorrowFlag (s.getV x) (s.getV y)) (.inl rfl) (.inr rfl)
      fun _ _ _ => rfl
  | reverseSub x y =>
    exact flag_acts x (diff8 (s.getV y) (s.getV x)) (notBorrowFlag (s.getV y) (s.getV x)) (.inl rfl) (.inr rfl)
      fun _ _ _ => rfl
  | shiftRight x y =>
    exact flag_acts x (shr8 (shiftSource s x y)) (lsbFlag (shiftSource s x y)) (.inl rfl) (.inr rfl)
      fun _ _ _ => rfl
  | shiftLeft x y =>
    exact flag_acts x (shl8 (shiftSource s x y)) (msbFlag (shiftSource s x y)) (.inl rfl) (.inr rfl)
      fun _ _ _ => rfl
  | random x nn => exact random_acts x nn s
  | loadIndex nnn => exact acts_write (.index (zext16 nnn)) (.inl ⟨nnn, rfl⟩) fun _ _ _ => rfl
  | addIndex x => exact addIndex_acts x s
  | fontAddr x =>
    exact acts_write (.index (BitVec.ofNat 16 (5 * (s.getV x).toNat))) (.inr ⟨x, .inr (.inl rfl)⟩) fun _ _ _ => rfl
  | storeBcd x => exact storeBcd_acts x s
  | storeRegs x => exact storeRegs_acts x s
  | loadRegs x => exact loadRegs_acts x s
  | clearScreen => exact acts_write (.fb fbClear) (.inl rfl) fun _ _ _ => rfl
  | draw x y n => exact draw_acts x y n s
  | setDelay x => exact acts_write (.delay (s.getV x)) trivial fun _ _ _ => rfl
  | setSound x => exact acts_write (.sound (s.getV x)) trivial fun _ _ _ => rfl
  | waitKey x => exact waitKey_acts x s

end Sys2Proof.Machine

/-! # Who writes and who reads a piece of state -/

namespace Sys2Proof.Machine

variable {i : Instr} {s t u : State} {a : Action}

theorem Acts.exec_eq (h : Acts i s a) : exec i s = .next (a.run s) :=
  h.answers s.sound s.snapshot s.draws (fun _ => rfl) fun _ => rfl

/-- An answer of `exec` is what an action leaves. -/
theorem exec_eq_run (h : exec i s = .next t) : ∃ a, Acts i s a ∧ a.run s = t := by
  obtain ⟨a, ha⟩ := exec_acts i s
  exact ⟨a, ha, Host.Outcome.next.inj (ha.exec_eq.symm.trans h)⟩

/-! ## What an instruction leaves unchanged -/

/-- From `s` to `u` no piece of the state but those that `i` is let to write has changed, and what the invariant says
of the memory and the stack still holds. -/
structure Within (i : Instr) (s u : State) : Prop where
  regs       : ∀ r, u.getV r ≠ s.getV r → MayWriteReg r i
  index      : u.index ≠ s.index → MayWriteIndex i
  stack      : u.stack ≠ s.stack → MayWriteStack i
  fb         : u.fb ≠ s.fb → MayWritePixels i
  memWf      : s.mem.wf → u.mem.wf
  stackDepth : s.stack.length ≤ 16 → u.stack.length ≤ 16
  stackFrom  : ∀ a ∈ u.stack, a ∈ s.stack ∨ a = s.pc + 2#16

theorem within_refl (i : Instr) (s : State) : Within i s s where
  regs _ h := absurd rfl h
  index h := absurd rfl h
  stack h := absurd rfl h
  fb h := absurd rfl h
  memWf := id
  stackDepth := id
  stackFrom _ := .inl

/-- An allowed write changes its own piece of the state alone. -/
theorem Within.apply {w : Write} (h : Within i s u) (hw : w.Allowed i s) : Within i s (w.apply u) := by
  cases w with
  | reg x b =>
    refine { h with regs := fun r hr => ?_ }
    by_cases hx : r = x
    · exact hx ▸ hw
    · exact h.regs r (by simpa [Write.apply, hx] using hr)
  | regs v => exact { h with regs := hw }
  | index w => exact { h with index := fun _ => hw }
  | stack l =>
    obtain ⟨hi, hd, hf⟩ := hw
    exact { h with stack := fun _ => hi, stackDepth := hd, stackFrom := hf }
  | fb f => exact { h with fb := fun _ => hw }
  | mem m => exact { h with memWf := hw }
  | delay b | sound b | draw => exact { h with }

theorem Within.finish (h : Within i s u) (e : Effect) : Within i s (finish e u) := by
  cases e <;> exact { h with }

theorem Action.Allowed.within (h : a.Allowed i s) : Within i s (a.run s) := by
  cases a with
  | fault k => exact { within_refl i s with }
  | done e ws =>
    obtain ⟨-, hws⟩ := h
    exact (applyAll_induct (within_refl i s) fun w hw u hu => hu.apply (hws w hw)).finish e

/-- What `execute_one` changes, an instruction fetched and decoded at pc is let to write. -/
theorem executeOne_within (h : executeOne s = .next t) :
    (∃ k, t = faultState k s) ∨ ∃ i, decode (wordAtPc s) = .instr i ∧ Within i s t := by
  cases executeOne_cases h with
  | fault k => exact .inl ⟨k, rfl⟩
  | ran i _ _ hd he _ =>
    obtain ⟨a, ha, rfl⟩ := exec_eq_run he
    exact .inr ⟨i, hd, ha.allowed.within⟩

end Sys2Proof.Machine

namespace Sys2Proof.Proofs

open Sys2Proof.Machine

/-- Settles O56: only an instruction that drives the compositor writes the framebuffer, and a fault writes nothing. -/
theorem onlyTheCompositorChangesPixels : Obligations.OnlyTheCompositorChangesPixels := by
  intro s t px py h hne
  obtain ⟨k, rfl⟩ | ⟨i, hd, hw⟩ := executeOne_within h
  · exact absurd rfl hne
  · obtain rfl | ⟨x, y, n, rfl⟩ := hw.fb fun e => hne (by rw [e])
    · exact .inl hd
    · exact .inr ⟨x, y, n, hd⟩

/-- Settles O57: every write of an instruction is among those it is let to make, and a fault writes nothing. -/
theorem registersIndexAndStackHaveTheirWriters : Obligations.RegistersIndexAndStackHaveTheirWriters := by
  intro s t h
  obtain ⟨k, rfl⟩ | ⟨i, hd, hw⟩ := executeOne_within h
  · exact ⟨fun _ hne => absurd rfl hne, fun hne => absurd rfl hne, fun hne => absurd rfl hne⟩
  · exact ⟨fun r hne => ⟨i, hd, hw.regs r hne⟩, fun hne => ⟨i, hd, hw.index hne⟩,
      fun hne => ⟨i, hd, hw.stack hne⟩⟩

end Sys2Proof.Proofs

/-! # Every step keeps the invariant -/

namespace Sys2Proof.Machine

variable {i : Instr} {s t u : State} {a : Action}

/-- The invariant speaks of memory, the stack, pc, status and the returned status alone. -/
theorem State.Inv.of_sameBlock (h : s.Inv) (hb : SameBlock s t) (hs : t.status = s.status)
    (hr : t.returned = s.returned) : t.Inv := by
  obtain ⟨-, -, hpc, hstack, -, -, -, hmem⟩ := hb
  exact ⟨hmem ▸ h.memWf, hstack ▸ h.stackDepth, hstack ▸ h.stackExact, hpc ▸ h.pcExact,
    fun f hf => by rw [hpc, hr]; exact h.faultHere f (hs ▸ hf)⟩

/-- A fault record holds the pc at which it is taken (R300, R313). -/
theorem State.Inv.faultState (h : s.Inv) (k : FaultKind) : (faultState k s).Inv :=
  { h with
    faultHere := fun f hf => by
      obtain rfl := Status.faulted.inj hf
      exact ⟨rfl, rfl⟩ }

theorem finish_pc (e : Effect) (s : State) : (finish e s).pc = newPc e s.pc := by
  cases e <;> rfl

theorem finish_status (e : Effect) (s : State) : (finish e s).status = s.status := by
  cases e <;> rfl

/-- From a fetched instruction pc moves exactly, and so stays within its bound (R105, D9). -/
theorem newPc_le {e : Effect} (h : s.Inv) (hpc : s.pc.toNat ≤ 4094) (he : e.Allowed s) :
    (newPc e s.pc).toNat ≤ 4350 := by
  cases e with
  | increment =>
    have := newPc_increment_toNat s.pc hpc
    simp only [newPc]
    omega
  | skip p =>
    rw [newPc_skip_toNat p s.pc hpc]
    cases p <;> simp <;> omega
  | jump t =>
    rcases he with ht | ht
    · exact ht
    · exact (h.stackExact t ht).trans (by decide)
  | halt => exact h.pcExact

/-- A completed instruction of a Running machine keeps the invariant. -/
theorem State.Inv.finish {e : Effect} {ws : List Write} (h : s.Inv) (hr : s.status = .running)
    (hpc : s.pc.toNat ≤ 4094) (ha : (Action.done e ws).Allowed i s) : ((Action.done e ws).run s).Inv := by
  have hw := ha.within
  have hu := applyAll_wrote ws s
  refine ⟨hw.memWf h.memWf, hw.stackDepth h.stackDepth, fun a hm => ?_, ?_, fun f hf => ?_⟩
  · rcases hw.stackFrom a hm with hm | rfl
    · exact h.stackExact a hm
    · rw [newPc_increment_toNat s.pc hpc]
      omega
  · rw [Action.run, finish_pc, hu.pc]
    exact newPc_le h hpc ha.1
  · rw [Action.run, finish_status, hu.status, hr] at hf
    cases hf

theorem executeOne_inv (h : s.Inv) (hr : s.status = .running) (hn : executeOne s = .next t) : t.Inv := by
  cases executeOne_cases hn with
  | fault k => exact h.faultState k
  | ran i _ hf _ he _ =>
    obtain ⟨a, ha, rfl⟩ := exec_eq_run he
    cases a with
    | fault k => exact h.faultState k
    | done e ws => exact h.finish hr hf.1 ha.allowed

end Sys2Proof.Machine

namespace Sys2Proof.Proofs

open Sys2Proof.Machine

/-- Settles O12: `execute_one` keeps the invariant, and the loop and the listener around it write the host's side
alone. -/
theorem everyStepKeepsTheStateInvariant : Obligations.EveryStepKeepsTheStateInvariant := by
  intro s t h hn
  obtain ⟨hr, u, hu, rfl⟩ := step_cases hn
  obtain ⟨hb, hbs, hbr, -⟩ := beginIteration_block s
  obtain ⟨he, hes, her, -⟩ := endIteration_block u
  have hbegin : (beginIteration s).Inv := h.of_sameBlock hb hbs hbr
  exact (executeOne_inv hbegin hr hu).of_sameBlock he hes her

end Sys2Proof.Proofs

/-! # What an instruction does not read -/

namespace Sys2Proof.Machine

variable {i : Instr} {s t u : State} {a : Action}

/-- An instruction that draws no random byte leaves every draw counter as it is. -/
theorem Action.Allowed.drawsAfter_eq (h : a.Allowed i s) (hi : ¬ DrawsRandom i) (n : Nat) : a.drawsAfter n = n := by
  cases a with
  | fault k => rfl
  | done e ws =>
    obtain ⟨-, hws⟩ := h
    refine List.foldlRecOn (motive := (· = n)) ws _ rfl fun k hk w hw => ?_
    cases w with
    | draw => exact absurd (hws _ hw) hi
    | _ => exact hk

theorem Action.run_setSound (a : Action) (s : State) (b : Byte) :
    a.run (s.setSound b) = (a.run s).setSound (a.soundAfter b) := by
  change _ = (a.run s).withUnread (a.soundAfter b) (a.run s).snapshot (a.run s).draws
  rw [a.run_snapshot, a.run_draws]
  exact a.run_withUnread s b s.snapshot s.draws

theorem Action.run_setSnapshot (a : Action) (s : State) (K : Keypad) :
    a.run { s with snapshot := K } = { a.run s with snapshot := K } := by
  change _ = (a.run s).withUnread (a.run s).sound K (a.run s).draws
  rw [a.run_sound, a.run_draws]
  exact a.run_withUnread s s.sound K s.draws

theorem Action.run_setDraws (a : Action) (s : State) (n : Nat) :
    a.run { s with draws := n } = { a.run s with draws := a.drawsAfter n } := by
  change _ = (a.run s).withUnread (a.run s).sound (a.run s).snapshot (a.drawsAfter n)
  rw [a.run_sound, a.run_snapshot]
  exact a.run_withUnread s s.sound s.snapshot n

/-- The sound timer is read by no instruction. -/
theorem exec_setSound (h : exec i s = .next t) (b : Byte) : ∃ c, exec i (s.setSound b) = .next (t.setSound c) := by
  obtain ⟨a, ha, rfl⟩ := exec_eq_run h
  exact ⟨a.soundAfter b, a.run_setSound s b ▸ ha.answers b s.snapshot s.draws (fun _ => rfl) fun _ => rfl⟩

/-- The fetch and the decoder do not read it either. -/
theorem executeOne_setSound (h : executeOne s = .next t) (b : Byte) :
    ∃ c, executeOne (s.setSound b) = .next (t.setSound c) := by
  have hf : fetchFault (s.setSound b) = fetchFault s := rfl
  have hw : fetchedWord (s.setSound b) = fetchedWord s := rfl
  unfold executeOne at h ⊢
  rw [hf, hw]
  split at h
  · cases h
    exact ⟨b, rfl⟩
  · split at h
    · cases h
      exact ⟨b, rfl⟩
    · exact exec_setSound h b

theorem answer_setSound (s : State) (b : Byte) : answer (s.setSound b) = (answer s).setSound b := by
  unfold answer
  rw [State.setSound_returned]
  split <;> rfl

theorem endIteration_setSound (s : State) (b : Byte) : endIteration (s.setSound b) = (endIteration s).setSound b :=
  congrArg nextInput (answer_setSound (hear (currentInput s).during s) b)

theorem step_setSound (h : step s = .next t) (b : Byte) : ∃ c, step (s.setSound b) = .next (t.setSound c) := by
  obtain ⟨hr, u, hu, rfl⟩ := step_cases h
  obtain ⟨c, hc⟩ := executeOne_setSound hu b
  exact ⟨c, endIteration_setSound u c ▸ step_of_running hr hc⟩

end Sys2Proof.Machine

namespace Sys2Proof.Proofs

open Sys2Proof.Machine

/-- Settles O49: neither an instruction nor the loop around it reads the sound timer, and a machine stops by its
status alone. -/
theorem soundIsReadByNothing : Obligations.SoundIsReadByNothing := by
  intro s b
  refine ⟨fun t h => step_setSound h b, fun r h => ?_⟩
  cases hs : s.status with
  | running =>
    obtain ⟨u, hu, -⟩ := executeOne_shape (beginIteration s)
    rw [step_of_running hs hu] at h
    cases h
  | faulted f =>
    simp only [step, State.setSound_status, hs] at h ⊢
    exact h

/-- Settles O50: the action of an instruction is the same for every snapshot and every draw counter that the
instruction does not read. -/
theorem inputsAreReadOnlyWhereTheSpecSays : Obligations.InputsAreReadOnlyWhereTheSpecSays := by
  intro i s t h
  obtain ⟨a, ha, rfl⟩ := exec_eq_run h
  refine ⟨fun hi K => ?_, fun hi n => ?_⟩
  · rw [← a.run_setSnapshot]
    exact ha.answers s.sound K s.draws (fun hr => absurd hr hi) fun _ => rfl
  · have hd : ¬ DrawsRandom i := fun ⟨x, nn, e⟩ => hi x nn e
    have hrun := a.run_setDraws s n
    rw [ha.allowed.drawsAfter_eq hd] at hrun
    rw [← hrun]
    exact ha.answers s.sound s.snapshot n (fun _ => rfl) fun hr => absurd hr hd

end Sys2Proof.Proofs

/-! # Fetch and decode faults, and what an instruction stores -/

namespace Sys2Proof

/-! ## The illegal words (30_encoding.md R75) -/

theorem decodeAlu_eq_none {x y : Reg} {d : Nibble} (h : d.toNat ∈ [0x8, 0x9, 0xA, 0xB, 0xC, 0xD, 0xF]) :
    decodeAlu x y d = none := by
  unfold decodeAlu
  split
  case h_10 => rfl
  all_goals simp at h

theorem decodeKey_eq_none {x : Reg} {nn : Byte} (h : nn.toNat ∉ [0x9E, 0xA1]) : decodeKey x nn = none := by
  unfold decodeKey
  split
  case h_3 => rfl
  all_goals simp at h

theorem decodeMisc_eq_none {x : Reg} {nn : Byte}
    (h : nn.toNat ∉ [0x07, 0x0A, 0x15, 0x18, 0x1E, 0x29, 0x33, 0x55, 0x65]) : decodeMisc x nn = none := by
  unfold decodeMisc
  split
  case h_10 => rfl
  all_goals simp at h

/-- NN of a word is its low byte. -/
theorem immOf_nibbles_toNat (w : Word) : (immOf (nibbleC w) (nibbleD w)).toNat = w.toNat % 256 := by
  rw [immOf_toNat, nibbleC_toNat, nibbleD_toNat]
  omega

end Sys2Proof

namespace Sys2Proof.Machine

variable {i : Instr} {s t u : State}

/-- An illegal word matches no row of the table. -/
theorem decode_of_illegalWord {w : Word} (h : IllegalWord w.toNat) : decode w = .error w := by
  have lead {a : Nibble} (ha : w.toNat / 4096 = a.toNat) : nibbleA w = a :=
    BitVec.eq_of_toNat_eq ((nibbleA_toNat w).trans ha)
  have digit (hd : w.toNat % 16 ≠ 0) : nibbleD w ≠ 0x0 := fun e => hd (by rw [← nibbleD_toNat, e]; rfl)
  suffices hn : decodeNibbles (nibbleA w) (nibbleB w) (nibbleC w) (nibbleD w) = none by
    simp only [decode, hn]
  rcases h with ⟨ha, hcls, hret⟩ | ⟨ha, hd⟩ | ⟨ha, hd⟩ | ⟨ha, hd⟩ | ⟨ha, hnn⟩ | ⟨ha, hnn⟩
  · have hA : nibbleA w = 0x0 := lead ha
    have word (b c d : Nibble) (e : nibbleB w = b ∧ nibbleC w = c ∧ nibbleD w = d) :
        w.toNat = (wordOfNibbles 0x0 b c d).toNat := by
      obtain ⟨rfl, rfl, rfl⟩ := e
      rw [← hA, wordOfNibbles_nibbles]
    rw [hA]
    exact (if_neg fun e => hcls (word 0x0 0xE 0x0 e)).trans (if_neg fun e => hret (word 0x0 0xE 0xE e))
  · rw [lead (a := 0x5) ha]
    exact if_neg (digit hd)
  · rw [lead (a := 0x8) ha]
    exact decodeAlu_eq_none (nibbleD_toNat w ▸ hd)
  · rw [lead (a := 0x9) ha]
    exact if_neg (digit hd)
  · rw [lead (a := 0xE) ha]
    exact decodeKey_eq_none (immOf_nibbles_toNat w ▸ hnn)
  · rw [lead (a := 0xF) ha]
    exact decodeMisc_eq_none (immOf_nibbles_toNat w ▸ hnn)

/-! ## The faults of fetch and decode -/

theorem fetchFault_of_fetchable (h : Fetchable s) : fetchFault s = none := by
  obtain ⟨hpc, hodd⟩ := h
  rcases fetchFault_cases s with ⟨-, hr⟩ | ⟨-, -, hr, hp⟩ | ⟨hn, -⟩
  · omega
  · rcases hodd with he | he
    · omega
    · exact nomatch hp.symm.trans he
  · exact hn

theorem executeOne_of_fetchFault {k : FaultKind} (h : fetchFault s = some k) : executeOne s = raise k s := by
  simp only [executeOne, h]

theorem executeOne_of_decodeError {w : Word} (hf : Fetchable s) (hd : decode (wordAtPc s) = .error w) :
    executeOne s = raise (.decodeError w) s := by
  simp only [executeOne, fetchFault_of_fetchable hf, fetchedWord_eq, hd]

/-! ## The bytes that an instruction stores -/

/-- The bytes that the instruction, executed at `s`, stores from I on: FX33 and FX55 store some (R203, R204). -/
def storedBytes (s : State) : Instr → List Byte
  | .storeBcd x => bcdDigits (s.getV x)
  | .storeRegs x => regBlock s x
  | _ => []

@[simp] theorem length_storedBytes_storeBcd (s : State) (x : Reg) : (storedBytes s (.storeBcd x)).length = 3 := rfl

@[simp] theorem length_storedBytes_storeRegs (s : State) (x : Reg) :
    (storedBytes s (.storeRegs x)).length = x.val + 1 := regBlock_length s x

/-- What an instruction does to memory: it takes a fault, or its stored bytes, all at addresses that exist, are written
from I on. -/
theorem exec_stores (h : exec i s = .next t) :
    (∃ k, t = faultState k s) ∨
      rangeFault s.index.toNat (storedBytes s i).length = none ∧
        t.mem = s.mem.writeBlock s.index.toNat (storedBytes s i) := by
  have failed {k} (h : raise k s = .next t) : ∃ k, t = faultState k s := ⟨k, (Host.Outcome.next.inj h).symm⟩
  have done {e u m} (h : complete e u = .next t) (hu : u.mem = m) : t.mem = m := by
    obtain rfl := Host.Outcome.next.inj h
    cases e <;> exact hu
  cases i with
  | ret =>
    simp only [exec, execRet] at h
    split at h
    · exact .inr ⟨rfl, done h rfl⟩
    · exact .inl (failed h)
  | call nnn =>
    simp only [exec, execCall] at h
    split at h
    · exact .inr ⟨rfl, done h rfl⟩
    · exact .inl (failed h)
  | skipKey x | skipNotKey x =>
    simp only [exec, execSkipKey, execSkipNotKey] at h
    split at h
    · exact .inr ⟨rfl, done h rfl⟩
    · exact .inl (failed h)
  | draw x y n =>
    simp only [exec, execDraw] at h
    split at h
    · exact .inl (failed h)
    · exact .inr ⟨rfl, done h rfl⟩
  | addIndex x | loadRegs x =>
    simp only [exec, execAddIndex, execLoadRegs] at h
    split at h
    · exact .inl (failed h)
    · exact .inr ⟨rfl, done h rfl⟩
  | storeBcd x =>
    simp only [exec, execStoreBcd] at h
    split at h
    · exact .inl (failed h)
    · exact .inr ⟨by assumption, done h rfl⟩
  | storeRegs x =>
    simp only [exec, execStoreRegs] at h
    split at h
    · exact .inl (failed h)
    · exact .inr ⟨by rw [length_storedBytes_storeRegs]; assumption, done h rfl⟩
  | waitKey x =>
    simp only [exec, execWaitKey, waitKey] at h
    split at h
    · exact .inr ⟨rfl, done h rfl⟩
    · exact .inr ⟨rfl, done h rfl⟩
  | _ => exact .inr ⟨rfl, done h rfl⟩

/-- A completed instruction has written its stored bytes. -/
theorem exec_stores_of_continued (h : exec i s = .next t) (hr : t.returned = some .continued) :
    t.mem = s.mem.writeBlock s.index.toNat (storedBytes s i) := by
  obtain ⟨k, rfl⟩ | ⟨-, hm⟩ := exec_stores h
  · cases hr
  · exact hm

/-- Only FX33 and FX55 store bytes. -/
theorem storedBytes_cases (s : State) (i : Instr) :
    (∃ x, i = .storeBcd x) ∨ (∃ x, i = .storeRegs x) ∨ storedBytes s i = [] := by
  unfold storedBytes
  split
  · exact .inl ⟨_, rfl⟩
  · exact .inr (.inl ⟨_, rfl⟩)
  · exact .inr (.inr rfl)

/-- A byte that an instruction changes is one of its stored bytes and exists. -/
theorem exec_changed_byte {a : Nat} (h : exec i s = .next t) (hne : t.mem.read a ≠ s.mem.read a) :
    a ≤ 4095 ∧ s.index.toNat ≤ a ∧ a < s.index.toNat + (storedBytes s i).length := by
  obtain ⟨k, rfl⟩ | ⟨hr, hm⟩ := exec_stores h
  · exact absurd rfl hne
  · have inside : ¬ (a < s.index.toNat ∨ s.index.toNat + (storedBytes s i).length ≤ a) := fun ho =>
      hne (hm ▸ Memory.read_writeBlock_outside _ _ _ _ ho)
    rw [rangeFault_none_iff] at hr
    omega

/-- Two stored bytes that lie at pc unchanged are the word at pc, high byte first (R56, R64). -/
theorem wordAtPc_of_stored (hm : s.mem.wf) (h : exec i s = .next t) (hr : t.returned = some .continued)
    (hhi : u.mem.read u.pc.toNat = t.mem.read u.pc.toNat)
    (hlo : u.mem.read (u.pc.toNat + 1) = t.mem.read (u.pc.toNat + 1)) {j : Nat}
    (hj : j + 1 < (storedBytes s i).length) (hpc : u.pc.toNat = s.index.toNat + j) :
    (wordAtPc u).toNat = (storedBytes s i)[j].toNat * 256 + (storedBytes s i)[j + 1].toNat := by
  have ht := exec_stores_of_continued h hr
  rw [wordAtPc_toNat, hhi, hlo, ht, hpc, Nat.add_assoc, Memory.read_writeBlock_inside _ _ hm.1 _ j,
    Memory.read_writeBlock_inside _ _ hm.1 _ (j + 1) hj]

end Sys2Proof.Machine

namespace Sys2Proof.Proofs

open Sys2Proof.Machine

/-- Settles O7: each check that fails, in their order, is the fault that `execute_one` raises, and raising one changes
status alone. -/
theorem fetchAndDecodeFaultsInOrder : Obligations.FetchAndDecodeFaultsInOrder := by
  intro s
  have took {k : FaultKind} (h : executeOne s = raise k s) : ∃ t, executeOne s = .next t ∧ TookFault k s t :=
    ⟨faultState k s, h, tookFault_faultState k s⟩
  refine ⟨fun hpc => ?_, fun hpc hodd hp => ?_, fun hf hw => ?_⟩
  · exact took (executeOne_of_fetchFault (if_pos hpc))
  · exact took (executeOne_of_fetchFault ((if_neg (Nat.not_lt.2 hpc)).trans (if_pos ⟨hodd, hp⟩)))
  · exact took (executeOne_of_decodeError hf (decode_of_illegalWord hw))

/-- Settles O38: the two bytes at pc are neighbours among the stored bytes of the instruction. -/
theorem storedCodeIsFetched : Obligations.StoredCodeIsFetched := by
  intro x s t u hm hr hhi hlo
  refine ⟨fun h k hk hpc => ?_, fun h => ⟨fun hpc => ?_, fun hpc => ?_⟩⟩
  · have hk1 : (k + 1).val = k.val + 1 := Fin.val_add_one_of_lt' (by omega)
    rw [wordAtPc_of_stored hm h hr hhi hlo (by rw [length_storedBytes_storeRegs]; omega) hpc]
    have hlow := regBlock_getElem s x (k + 1) (by omega)
    simp only [hk1] at hlow
    simp only [storedBytes, regBlock_getElem s x k (by omega), hlow]
  · have hv := (s.getV x).isLt
    rw [wordAtPc_of_stored (j := 0) hm h hr hhi hlo (by simp) hpc]
    simp only [storedBytes, bcdDigits, List.getElem_cons_zero, List.getElem_cons_succ, trunc8_toNat]
    omega
  · have hv := (s.getV x).isLt
    rw [wordAtPc_of_stored (j := 1) hm h hr hhi hlo (by simp) hpc]
    simp only [storedBytes, bcdDigits, List.getElem_cons_zero, List.getElem_cons_succ, trunc8_toNat]
    omega

/-- Settles O55: a changed byte is a stored byte, and only FX33 and FX55 have some. -/
theorem onlyStoresChangeMemory : Obligations.OnlyStoresChangeMemory := by
  intro s t a h hne
  cases executeOne_cases h with
  | fault k => exact absurd rfl hne
  | ran i _ _ hd he _ =>
    obtain ⟨ha, hlo, hhi⟩ := exec_changed_byte he hne
    refine ⟨ha, hlo, ?_⟩
    rcases storedBytes_cases s i with ⟨x, rfl⟩ | ⟨x, rfl⟩ | hnil
    · rw [length_storedBytes_storeBcd] at hhi
      exact ⟨x, .inl ⟨hd, by omega⟩⟩
    · rw [length_storedBytes_storeRegs] at hhi
      exact ⟨x, .inr ⟨hd, by omega⟩⟩
    · rw [hnil, List.length_nil] at hhi
      omega

end Sys2Proof.Proofs

/-! # Decoder, encoder and opcode table agree -/

namespace Sys2Proof

open Sys2Proof.Machine

variable {w : Word} {i : Instr} {r : OpcodeRow}

/-! ## Decode after encode (30_encoding.md R72, R73) -/

/-- The 8XY* rows see the registers that were encoded. -/
theorem decodeNibbles_regReg (x y : Reg) (d : Nibble) :
    decodeNibbles 0x8 (nibbleOf x) (nibbleOf y) d = decodeAlu x y d := by
  simp [decodeNibbles]

/-- The EXNN rows see the register and the low byte that were encoded. -/
theorem decodeNibbles_regKey (x : Reg) (nn : Byte) :
    decodeNibbles 0xE (nibbleOf x) (immHigh nn) (immLow nn) = decodeKey x nn := by
  simp [decodeNibbles]

/-- The FXNN rows see the register and the low byte that were encoded. -/
theorem decodeNibbles_regMisc (x : Reg) (nn : Byte) :
    decodeNibbles 0xF (nibbleOf x) (immHigh nn) (immLow nn) = decodeMisc x nn := by
  simp [decodeNibbles]

theorem decode_encode (i : Instr) : decode (encode i) = .instr i := by
  cases i with
  | clearScreen => rfl
  | ret => rfl
  | jump nnn => exact decode_of_some (by simp [decodeNibbles])
  | call nnn => exact decode_of_some (by simp [decodeNibbles])
  | loadIndex nnn => exact decode_of_some (by simp [decodeNibbles])
  | jumpV0 nnn => exact decode_of_some (by simp [decodeNibbles])
  | skipEqImm x nn => exact decode_of_some (by simp [decodeNibbles])
  | skipNeImm x nn => exact decode_of_some (by simp [decodeNibbles])
  | loadImm x nn => exact decode_of_some (by simp [decodeNibbles])
  | addImm x nn => exact decode_of_some (by simp [decodeNibbles])
  | random x nn => exact decode_of_some (by simp [decodeNibbles])
  | skipEqReg x y => exact decode_of_some (by simp [decodeNibbles])
  | skipNeReg x y => exact decode_of_some (by simp [decodeNibbles])
  | draw x y n => exact decode_of_some (by simp [decodeNibbles])
  | move x y => exact decode_of_some (decodeNibbles_regReg x y _)
  | or x y => exact decode_of_some (decodeNibbles_regReg x y _)
  | and x y => exact decode_of_some (decodeNibbles_regReg x y _)
  | xor x y => exact decode_of_some (decodeNibbles_regReg x y _)
  | addCarry x y => exact decode_of_some (decodeNibbles_regReg x y _)
  | subNotBorrow x y => exact decode_of_some (decodeNibbles_regReg x y _)
  | shiftRight x y => exact decode_of_some (decodeNibbles_regReg x y _)
  | reverseSub x y => exact decode_of_some (decodeNibbles_regReg x y _)
  | shiftLeft x y => exact decode_of_some (decodeNibbles_regReg x y _)
  | skipKey x => exact decode_of_some (decodeNibbles_regKey x _)
  | skipNotKey x => exact decode_of_some (decodeNibbles_regKey x _)
  | readDelay x => exact decode_of_some (decodeNibbles_regMisc x _)
  | setDelay x => exact decode_of_some (decodeNibbles_regMisc x _)
  | setSound x => exact decode_of_some (decodeNibbles_regMisc x _)
  | addIndex x => exact decode_of_some (decodeNibbles_regMisc x _)
  | fontAddr x => exact decode_of_some (decodeNibbles_regMisc x _)
  | storeBcd x => exact decode_of_some (decodeNibbles_regMisc x _)
  | storeRegs x => exact decode_of_some (decodeNibbles_regMisc x _)
  | loadRegs x => exact decode_of_some (decodeNibbles_regMisc x _)
  | waitKey x => exact decode_of_some (decodeNibbles_regMisc x _)

/-- The decoder takes the two bytes of the instruction, high byte first, and leaves the rest (R70). -/
theorem decodeBytes_encodeBytes (i : Instr) (rest : List Byte) :
    decodeBytes (encodeBytes i ++ rest) = .instr i rest := by
  simp [encodeBytes, decodeBytes, decode_encode]

/-- The operands' types are the fields of R71, so that well-formedness excludes nothing. -/
theorem Instr.wellFormed_eq_true (i : Instr) : i.wellFormed = true := by
  cases i <;> simp [Instr.wellFormed, Laws.fieldFits_reg, Laws.fieldFits_toNat]

/-! ## A row's micro-op is encoded as the row's digits (R71, R73) -/

@[simp] theorem nibbleOf_fieldX (w : Word) : nibbleOf (fieldX w) = nibbleB w := by
  apply BitVec.eq_of_toNat_eq
  simp [nibbleOf, fieldX, nibbleB_toNat]

@[simp] theorem nibbleOf_fieldY (w : Word) : nibbleOf (fieldY w) = nibbleC w := by
  apply BitVec.eq_of_toNat_eq
  simp [nibbleOf, fieldY, nibbleC_toNat]

@[simp] theorem fieldN_eq_nibbleD (w : Word) : fieldN w = nibbleD w := by
  apply BitVec.eq_of_toNat_eq
  simp [fieldN, nibbleD_toNat]

theorem fieldNN_eq_immOf (w : Word) : fieldNN w = immOf (nibbleC w) (nibbleD w) := by
  apply BitVec.eq_of_toNat_eq
  simp [fieldNN, immOf_nibbles_toNat]

theorem fieldNNN_eq_addrOf (w : Word) : fieldNNN w = addrOf (nibbleB w) (nibbleC w) (nibbleD w) := by
  apply BitVec.eq_of_toNat_eq
  rw [addrOf_toNat, nibbleB_toNat, nibbleC_toNat, nibbleD_toNat, fieldNNN, BitVec.toNat_setWidth]
  omega

/-- The word with the row's digits, and with the digits of `w` where the row asks for none. -/
def OpcodeRow.fill (r : OpcodeRow) (w : Word) : Word :=
  wordOfNibbles (r.a.getD (nibbleA w)) (r.b.getD (nibbleB w)) (r.c.getD (nibbleC w)) (r.d.getD (nibbleD w))

theorem getD_of_digitFits {want : Option Nibble} {n : Nibble} (h : digitFits want n = true) : want.getD n = n := by
  cases want with
  | none => rfl
  | some k => exact (of_decide_eq_true h).symm

theorem fill_of_rowMatches (h : rowMatches w r = true) : r.fill w = w := by
  simp only [rowMatches, Bool.and_eq_true] at h
  obtain ⟨⟨⟨ha, hb⟩, hc⟩, hd⟩ := h
  rw [OpcodeRow.fill, getD_of_digitFits ha, getD_of_digitFits hb, getD_of_digitFits hc, getD_of_digitFits hd,
    wordOfNibbles_nibbles]

theorem encodeAddr_fieldNNN (a : Nibble) (w : Word) :
    encodeAddr a (fieldNNN w) = wordOfNibbles a (nibbleB w) (nibbleC w) (nibbleD w) := by
  simp [encodeAddr, fieldNNN_eq_addrOf]

theorem encodeRegImm_fieldNN (a : Nibble) (w : Word) :
    encodeRegImm a (fieldX w) (fieldNN w) = wordOfNibbles a (nibbleB w) (nibbleC w) (nibbleD w) := by
  simp [encodeRegImm, fieldNN_eq_immOf]

theorem encodeRegImm_fieldX (a : Nibble) (w : Word) (nn : Byte) :
    encodeRegImm a (fieldX w) nn = wordOfNibbles a (nibbleB w) (immHigh nn) (immLow nn) := by
  simp [encodeRegImm]

theorem encodeRegReg_fields (a : Nibble) (w : Word) (d : Nibble) :
    encodeRegReg a (fieldX w) (fieldY w) d = wordOfNibbles a (nibbleB w) (nibbleC w) d := by
  simp [encodeRegReg]

/-- The fields of a row's operands and the row's literal digits make up the encoding of its micro-op. -/
theorem encode_op_of_mem (hr : r ∈ opcodeRows w) : encode r.op = r.fill w := by
  simp only [opcodeRows, List.mem_append] at hr
  rcases hr with (hr | hr) | hr <;> revert r
  · simp only [rows1to10, List.forall_mem_cons]
    exact ⟨(by decide : 0x00E0#16 = wordOfNibbles 0x0 0x0 0xE 0x0),
      (by decide : 0x00EE#16 = wordOfNibbles 0x0 0x0 0xE 0xE), encodeAddr_fieldNNN _ w, encodeAddr_fieldNNN _ w,
      encodeRegImm_fieldNN _ w, encodeRegImm_fieldNN _ w, encodeRegReg_fields _ w _, encodeRegReg_fields _ w _,
      encodeRegImm_fieldNN _ w, encodeRegImm_fieldNN _ w, List.forall_mem_nil _⟩
  · simp only [rows11to23, List.forall_mem_cons, fieldN_eq_nibbleD]
    refine ⟨?move, ?or, ?and, ?xor, ?addCarry, ?subNotBorrow, ?shiftRight, ?reverseSub, ?shiftLeft,
      encodeAddr_fieldNNN _ w, encodeAddr_fieldNNN _ w, encodeRegImm_fieldNN _ w, ?draw, List.forall_mem_nil _⟩
    all_goals exact encodeRegReg_fields _ w _
  · simp only [rows24to34, List.forall_mem_cons]
    refine ⟨?skipKey, ?skipNotKey, ?readDelay, ?setDelay, ?setSound, ?addIndex, ?fontAddr, ?storeBcd, ?storeRegs,
      ?loadRegs, ?waitKey, List.forall_mem_nil _⟩
    all_goals exact encodeRegImm_fieldX _ w _

/-- Every word that matches a row is the encoding of the row's micro-op. -/
theorem encode_of_rowMatches (hr : r ∈ opcodeRows w) (h : rowMatches w r = true) : encode r.op = w :=
  (encode_op_of_mem hr).trans (fill_of_rowMatches h)

/-- A row's micro-op is what the decoder answers for every word that matches the row. -/
theorem decode_of_rowMatches (hr : r ∈ opcodeRows w) (h : rowMatches w r = true) : decode w = .instr r.op := by
  rw [← decode_encode r.op, encode_of_rowMatches hr h]

/-! ## The rows and the illegal words cover all words (R73, R75) -/

/-- The word matches a row of the opcode table. -/
def HasRow (w : Word) : Prop := ∃ r ∈ opcodeRows w, rowMatches w r = true

/-- The leading digits whose rows ask for no other digit. -/
def freeDigits : List Nibble := [0x1, 0x2, 0x3, 0x4, 0x6, 0x7, 0xA, 0xB, 0xC, 0xD]

/-- The last digits of the 8XY* rows. -/
def aluDigits : List Nibble := [0x0, 0x1, 0x2, 0x3, 0x4, 0x5, 0x6, 0x7, 0xE]

/-- The low bytes of the EXNN rows. -/
def keyBytes : List Byte := [0x9E, 0xA1]

/-- The low bytes of the FXNN rows. -/
def miscBytes : List Byte := [0x07, 0x0A, 0x15, 0x18, 0x1E, 0x29, 0x33, 0x55, 0x65]

theorem immOf_eq_iff (c d : Nibble) (nn : Byte) : immOf c d = nn ↔ c = immHigh nn ∧ d = immLow nn := by
  constructor
  · rintro rfl
    exact ⟨(immHigh_immOf c d).symm, (immLow_immOf c d).symm⟩
  · rintro ⟨rfl, rfl⟩
    exact immOf_split nn

/-- R73's condition column, by leading digit. -/
inductive RowDigits (w : Word) : Prop
  | free (ha : nibbleA w ∈ freeDigits)
  | zero (hw : w = 0x00E0 ∨ w = 0x00EE)
  | skipRegs (ha : nibbleA w ∈ [0x5, 0x9]) (hd : nibbleD w = 0x0)
  | alu (ha : nibbleA w = 0x8) (hd : nibbleD w ∈ aluDigits)
  | key (ha : nibbleA w = 0xE) (hn : fieldNN w ∈ keyBytes)
  | misc (ha : nibbleA w = 0xF) (hn : fieldNN w ∈ miscBytes)

theorem RowDigits.hasRow (h : RowDigits w) : HasRow w := by
  simp only [HasRow, opcodeRows, rows1to10, rows11to23, rows24to34, rowMatches, digitFits, List.mem_append,
    List.mem_cons, List.not_mem_nil, or_false, or_assoc, exists_eq_or_imp, exists_eq_left, Bool.and_eq_true,
    decide_eq_true_eq, and_true]
  cases h with
  | free ha =>
    simp only [freeDigits, List.mem_cons, List.not_mem_nil, or_false] at ha
    rcases ha with ha | ha | ha | ha | ha | ha | ha | ha | ha | ha <;> simp [ha]
  | zero hw =>
    rcases hw with rfl | rfl
    · exact .inl (by decide)
    · exact .inr (.inl (by decide))
  | skipRegs ha hd =>
    simp only [List.mem_cons, List.not_mem_nil, or_false] at ha
    rcases ha with ha | ha <;> simp [ha, hd]
  | alu ha hd => simpa [ha, aluDigits] using hd
  | key ha hn => simpa [ha, keyBytes, fieldNN_eq_immOf, immOf_eq_iff, immHigh, immLow] using hn
  | misc ha hn =>
    simp only [miscBytes, fieldNN_eq_immOf, immOf_eq_iff, List.mem_cons, List.not_mem_nil, or_false] at hn
    rcases hn with hn | hn | hn | hn | hn | hn | hn | hn | hn <;> simp [ha, hn, immHigh, immLow]

theorem leadingDigit_cases (a : Nibble) :
    a ∈ freeDigits ∨ a = 0x0 ∨ a ∈ [0x5, 0x9] ∨ a = 0x8 ∨ a = 0xE ∨ a = 0xF := by
  revert a
  decide

theorem aluDigit_cases (d : Nibble) : d ∈ aluDigits ∨ d.toNat ∈ [0x8, 0x9, 0xA, 0xB, 0xC, 0xD, 0xF] := by
  revert d
  decide

theorem fieldNN_toNat (w : Word) : (fieldNN w).toNat = w.toNat % 256 := BitVec.toNat_setWidth ..

/-- R73's conditions and R75's table of illegal words leave no word out. -/
theorem rowDigits_or_illegalWord (w : Word) : RowDigits w ∨ IllegalWord w.toNat := by
  unfold IllegalWord
  rw [← nibbleA_toNat, ← nibbleD_toNat, ← fieldNN_toNat]
  rcases leadingDigit_cases (nibbleA w) with ha | ha | ha | ha | ha | ha
  · exact .inl (.free ha)
  · by_cases hw : w = 0x00E0 ∨ w = 0x00EE
    · exact .inl (.zero hw)
    · right
      simpa [ha, ← BitVec.toNat_inj] using hw
  · by_cases hd : nibbleD w = 0x0
    · exact .inl (.skipRegs ha hd)
    · right
      simp only [List.mem_cons, List.not_mem_nil, or_false] at ha
      rcases ha with ha | ha <;> simpa [ha, ← BitVec.toNat_inj] using hd
  · rcases aluDigit_cases (nibbleD w) with hd | hd
    · exact .inl (.alu ha hd)
    · exact .inr (.inr (.inr (.inl ⟨congrArg BitVec.toNat ha, hd⟩)))
  · by_cases hn : fieldNN w ∈ keyBytes
    · exact .inl (.key ha hn)
    · right
      simpa [ha, keyBytes, ← BitVec.toNat_inj] using hn
  · by_cases hn : fieldNN w ∈ miscBytes
    · exact .inl (.misc ha hn)
    · right
      simpa [ha, miscBytes, ← BitVec.toNat_inj] using hn

theorem hasRow_or_illegalWord (w : Word) : HasRow w ∨ IllegalWord w.toNat :=
  (rowDigits_or_illegalWord w).imp_left RowDigits.hasRow

/-! ## The micro-ops of the matching rows -/

/-- The micro-ops of the rows that a word matches. -/
def matchingOps (w : Word) : List Instr := ((opcodeRows w).filter (rowMatches w)).map OpcodeRow.op

theorem mem_matchingOps : i ∈ matchingOps w ↔ ∃ r ∈ opcodeRows w, rowMatches w r = true ∧ r.op = i := by
  simp [matchingOps, and_assoc]

/-- The table has one row per constructor of `Instr`, in the order of the constructors. -/
theorem opcodeRows_ctorIdx (w : Word) : (opcodeRows w).map (fun r => r.op.ctorIdx) = List.range 34 := rfl

theorem matchingOps_nodup (w : Word) : (matchingOps w).Nodup := by
  apply List.Nodup.of_map Instr.ctorIdx
  rw [matchingOps, List.map_map]
  exact (opcodeRows_ctorIdx w ▸ List.nodup_range).sublist (List.filter_sublist.map _)

/-! ## What the decoder answers, by the rows -/

/-- A word that matches no row is illegal, so the decoder's answer is a matching row's micro-op. -/
theorem mem_matchingOps_iff_decode : i ∈ matchingOps w ↔ decode w = .instr i := by
  rw [mem_matchingOps]
  constructor
  · rintro ⟨r, hr, hm, rfl⟩
    exact decode_of_rowMatches hr hm
  · intro hd
    rcases hasRow_or_illegalWord w with ⟨r, hr, hm⟩ | hw
    · exact ⟨r, hr, hm, DecodeResult.instr.inj ((decode_of_rowMatches hr hm).symm.trans hd)⟩
    · exact nomatch hd.symm.trans (decode_of_illegalWord hw)

theorem decode_eq_error_iff : decode w = .error w ↔ IllegalWord w.toNat := by
  refine ⟨fun hd => ?_, decode_of_illegalWord⟩
  rcases hasRow_or_illegalWord w with ⟨r, hr, hm⟩ | hw
  · exact nomatch hd.symm.trans (decode_of_rowMatches hr hm)
  · exact hw

theorem encode_of_decode (h : decode w = .instr i) : encode i = w := by
  obtain ⟨r, hr, hm, rfl⟩ := mem_matchingOps.1 (mem_matchingOps_iff_decode.2 h)
  exact encode_of_rowMatches hr hm

theorem matchingOps_of_decode_instr (h : decode w = .instr i) : matchingOps w = [i] := by
  apply List.perm_singleton.1
  rw [List.perm_ext_iff_of_nodup (matchingOps_nodup w) (List.nodup_singleton i)]
  intro j
  rw [mem_matchingOps_iff_decode, h, List.mem_singleton, DecodeResult.instr.injEq, eq_comm]

theorem matchingOps_of_decode_error {w' : Word} (h : decode w = .error w') : matchingOps w = [] :=
  List.eq_nil_iff_forall_not_mem.2 fun _ hi => nomatch h.symm.trans (mem_matchingOps_iff_decode.1 hi)

end Sys2Proof

namespace Sys2Proof.Proofs

open Sys2Proof.Machine

/-- Settles O2: for every constructor, the decoder's row reads the operands back from the digits it encodes. -/
theorem decodeOfEncodeIsTheInstruction : Obligations.DecodeOfEncodeIsTheInstruction :=
  fun i _ => ⟨decode_encode i, decodeBytes_encodeBytes i⟩

/-- Settles O3: the instruction is the micro-op of a row that the word matches, and such a micro-op is encoded as the
word. -/
theorem encodeOfDecodeIsTheWord : Obligations.EncodeOfDecodeIsTheWord :=
  fun _ i h => ⟨encode_of_decode h, i.wellFormed_eq_true⟩

/-- Settles O4: a word that is not illegal matches a row, and the decoder then answers the row's micro-op. -/
theorem decodeErrorsAreTheIllegalWords : Obligations.DecodeErrorsAreTheIllegalWords :=
  fun w => ⟨decode_eq_error_iff, decode_eq_error w⟩

/-- Settles O5: the micro-ops of the matching rows are distinct, and they are what the decoder answers. -/
theorem eachWordMatchesAtMostOneRow : Obligations.EachWordMatchesAtMostOneRow := by
  intro w
  refine ⟨rfl, ?_⟩
  cases hd : decode w with
  | instr i => exact matchingOps_of_decode_instr hd
  | error w' => exact matchingOps_of_decode_error hd

/-- Settles O1: the decoder computes each of the fourteen answers. -/
theorem sampleWordsDecode : Obligations.SampleWordsDecode := by
  unfold Obligations.SampleWordsDecode
  decide

end Sys2Proof.Proofs

/-! # How a step ends: its status, its timers and its pc -/

namespace Sys2Proof.Machine

variable {i : Instr} {s t : State}

/-! ## The three ways -/

/-- What `execute_one` can answer, by the status it returns (R100): a fault, a block in FX0A without a pressed key, or
a completed instruction. -/
theorem executeOne_ends (h : executeOne s = .next t) :
    (∃ k, t = faultState k s) ∨
    (t = finish .halt s ∧ s.snapshot.lowest = none ∧ ∃ x, decode (wordAtPc s) = .instr (.waitKey x)) ∨
    (t.returned = some .continued ∧ t.status = s.status) := by
  cases executeOne_cases h with
  | fault k => exact .inl ⟨k, rfl⟩
  | ran i _ _ hd _ hs =>
    cases hs with
    | fault k => exact .inl ⟨k, rfl⟩
    | blocked x hi hk => exact .inr (.inl ⟨rfl, hk, x, hi ▸ hd⟩)
    | wrote e u he hu => exact .inr (.inr (finish_of_ne_halt e u he ▸ ⟨rfl, hu.status⟩))

/-! ## The end of a completed instruction -/

/-- The delay timer that the instruction leaves to the decrement: FX15 writes it (R261). -/
def delayLeft (s : State) : Instr → Byte
  | .setDelay x => s.getV x
  | _ => s.delay

/-- The sound timer that the instruction leaves to the decrement: FX18 writes it (R262). -/
def soundLeft (s : State) : Instr → Byte
  | .setSound x => s.getV x
  | _ => s.sound

theorem delayLeft_of_ne (s : State) (hi : ∀ x, i ≠ .setDelay x) : delayLeft s i = s.delay := by
  unfold delayLeft
  split
  · exact absurd rfl (hi _)
  · rfl

theorem soundLeft_of_ne (s : State) (hi : ∀ x, i ≠ .setSound x) : soundLeft s i = s.sound := by
  unfold soundLeft
  split
  · exact absurd rfl (hi _)
  · rfl

/-- One of the six skips (42_skips.md). -/
def IsSkip (i : Instr) : Prop :=
  ∃ x y nn, i = .skipEqImm x nn ∨ i = .skipNeImm x nn ∨ i = .skipEqReg x y ∨ i = .skipNeReg x y ∨
    i = .skipKey x ∨ i = .skipNotKey x

/-- One of the four control transfers (41_control_transfer.md). -/
def IsTransfer (i : Instr) : Prop := i = .ret ∨ ∃ a, i = .jump a ∨ i = .call a ∨ i = .jumpV0 a

/-- The effects with which the instruction can complete (R104). -/
def Effect.CompletesBy (i : Instr) : Effect → Prop
  | .increment => True
  | .skip _ => IsSkip i
  | .jump _ => IsTransfer i
  | .halt => False

/-- The state after a completed instruction: an effect of its own, from writes that leave pc alone and each timer as
`delayLeft` and `soundLeft` say. -/
inductive CompletedShape (i : Instr) (s : State) : State → Prop where
  | mk (e : Effect) (u : State) (effect : e.CompletesBy i) (pc : u.pc = s.pc) (delay : u.delay = delayLeft s i)
      (sound : u.sound = soundLeft s i) : CompletedShape i s (finish e u)

/-- Every instruction that returns Continue has ended so. -/
theorem exec_completed (h : exec i s = .next t) (hr : t.returned = some .continued) : CompletedShape i s t := by
  have failed {k} (h : raise k s = .next t) : CompletedShape i s t := by
    obtain rfl := Host.Outcome.next.inj h
    cases hr
  have done {e u} (h : complete e u = .next t) (he : e.CompletesBy i) (hpc : u.pc = s.pc)
      (hd : u.delay = delayLeft s i) (hs : u.sound = soundLeft s i) : CompletedShape i s t :=
    Host.Outcome.next.inj h ▸ .mk e u he hpc hd hs
  cases i with
  | jump nnn => exact done h (.inr ⟨nnn, .inl rfl⟩) rfl rfl rfl
  | jumpV0 nnn => exact done h (.inr ⟨nnn, .inr (.inr rfl)⟩) rfl rfl rfl
  | ret =>
    simp only [exec, execRet] at h
    split at h
    · exact done h (.inl rfl) rfl rfl rfl
    · exact failed h
  | call nnn =>
    simp only [exec, execCall] at h
    split at h
    · exact done h (.inr ⟨nnn, .inr (.inl rfl)⟩) rfl rfl rfl
    · exact failed h
  | skipEqImm x nn => exact done h ⟨x, 0, nn, by simp⟩ rfl rfl rfl
  | skipNeImm x nn => exact done h ⟨x, 0, nn, by simp⟩ rfl rfl rfl
  | skipEqReg x y | skipNeReg x y => exact done h ⟨x, y, 0, by simp⟩ rfl rfl rfl
  | skipKey x | skipNotKey x =>
    simp only [exec, execSkipKey, execSkipNotKey] at h
    split at h
    · exact done h ⟨x, 0, 0, by simp⟩ rfl rfl rfl
    · exact failed h
  | addIndex x | storeBcd x | storeRegs x | loadRegs x =>
    simp only [exec, execAddIndex, execStoreBcd, execStoreRegs, execLoadRegs] at h
    split at h
    · exact failed h
    · exact done h trivial rfl rfl rfl
  | draw x y n =>
    simp only [exec, execDraw] at h
    split at h
    · exact failed h
    · exact done h trivial rfl rfl rfl
  | waitKey x =>
    simp only [exec, execWaitKey, waitKey] at h
    split at h
    · exact done h trivial rfl rfl rfl
    · obtain rfl := Host.Outcome.next.inj h
      cases hr
  | _ => exact done h trivial rfl rfl rfl

/-- Both timers count down from what the instruction leaves (R106). -/
theorem CompletedShape.timers (h : CompletedShape i s t) :
    t.delay = countDown (delayLeft s i) ∧ t.sound = countDown (soundLeft s i) := by
  obtain ⟨e, u, he, -, hd, hs⟩ := h
  rw [← hd, ← hs]
  cases e with
  | halt => exact he.elim
  | _ => exact ⟨rfl, rfl⟩

/-- Outside the transfers pc moves by 2, or by 4 in a skip; from a fetched instruction the sums are exact (R105). -/
theorem CompletedShape.pc (h : CompletedShape i s t) (hpc : s.pc.toNat ≤ 4094) (hi : ¬ IsTransfer i) :
    t.pc.toNat = s.pc.toNat + 2 ∨ t.pc.toNat = s.pc.toNat + 4 ∧ IsSkip i := by
  obtain ⟨e, u, he, hu, -, -⟩ := h
  rw [finish_pc, hu]
  cases e with
  | increment => exact .inl (newPc_increment_toNat s.pc hpc)
  | skip p =>
    rw [newPc_skip_toNat p s.pc hpc]
    cases p
    · exact .inl rfl
    · exact .inr ⟨rfl, he⟩
  | jump a => exact absurd he hi
  | halt => exact he.elim

end Sys2Proof.Machine

namespace Sys2Proof.Proofs

open Sys2Proof.Machine

/-- Settles O8: of the three ways a step ends only a fault leaves status Faulted, and the end of the iteration writes
neither the block nor the status. -/
theorem faultedStateIsPreciseAndFinal : Obligations.FaultedStateIsPreciseAndFinal := by
  intro s t f hr h hf
  obtain ⟨-, u, hu, rfl⟩ := step_cases h
  obtain ⟨hblock, hstatus, hreturned, -⟩ := endIteration_block u
  rw [hstatus] at hf
  have running (hus : u.status = s.status) : False := nomatch hf.symm.trans (hus.trans hr)
  rcases executeOne_ends hu with ⟨k, rfl⟩ | ⟨rfl, -⟩ | ⟨-, hus⟩
  · obtain rfl := Status.faulted.inj hf
    exact ⟨hblock, rfl, hreturned, by simp only [step, hstatus, faultState_status]⟩
  · exact (running rfl).elim
  · exact (running hus).elim

/-- Settles O9: only the block in FX0A returns BlockForIO, and `Halt` writes the returned status alone. -/
theorem onlyAnEmptyKeyWaitBlocks : Obligations.OnlyAnEmptyKeyWaitBlocks := by
  intro s t h hb
  rcases executeOne_ends h with ⟨k, rfl⟩ | ⟨rfl, hk, hd⟩ | ⟨hc, -⟩
  · cases hb
  · have hblock : SameBlock s (finish .halt s) := ⟨rfl, rfl, rfl, rfl, rfl, rfl, rfl, rfl⟩
    exact ⟨hd, (lowest_none_iff s.snapshot).1 hk, hblock, rfl, sameHost_refl s, rfl⟩
  · exact nomatch hc.symm.trans hb

/-- Settles O10: a step that neither blocks nor faults has completed its instruction, and both timers count down from
what the instruction leaves in them. -/
theorem completedStepCountsTimersDown : Obligations.CompletedStepCountsTimersDown := by
  intro s t i hf h hb hs
  have hc : t.returned = some .continued := by
    rcases executeOne_ends h with ⟨k, rfl⟩ | ⟨rfl, -⟩ | ⟨hc, -⟩
    · exact nomatch hs.trans hf.1
    · exact absurd rfl hb
    · exact hc
  rw [executeOne_of_fetches hf] at h
  obtain ⟨hdelay, hsound⟩ := (exec_completed h hc).timers
  rw [hdelay, hsound, countDown_toNat, countDown_toNat]
  refine ⟨hc, ?_, fun hi => by rw [delayLeft_of_ne s hi], ?_, fun hi => by rw [soundLeft_of_ne s hi], ?_⟩
  · rintro x rfl
    rfl
  · rintro x rfl
    rfl
  · rintro x rfl
    obtain rfl : finish .increment (s.setV x s.delay) = t := Host.Outcome.next.inj h
    simp

/-- Settles O11: the effect of a completed instruction other than a transfer is `Increment`, or `Skip` for a skip. -/
theorem completedStepMovesPcByItsEffect : Obligations.CompletedStepMovesPcByItsEffect := by
  intro s t i hf h hc hret hjump
  rw [executeOne_of_fetches hf] at h
  obtain ⟨-, ⟨hpc, -⟩, -⟩ := hf
  refine (exec_completed h hc).pc hpc ?_
  rintro (hi | ⟨a, hi⟩)
  · exact hret hi
  · obtain ⟨hj, hcall, hv0⟩ := hjump a
    exact hi.elim hj (·.elim hcall hv0)

/-- Settles O14: `execute_one` always answers, in one of its three ways, and the end of the iteration keeps the status
and the returned status. -/
theorem runningStepReturnsExactlyOneStatus : Obligations.RunningStepReturnsExactlyOneStatus := by
  intro s hr
  obtain ⟨u, hu, -⟩ := executeOne_shape (beginIteration s)
  refine ⟨endIteration u, step_of_running hr hu, ?_⟩
  obtain ⟨-, hstatus, hreturned, -⟩ := endIteration_block u
  rw [hstatus, hreturned]
  rcases executeOne_ends hu with ⟨k, rfl⟩ | ⟨rfl, -⟩ | ⟨hc, hs⟩
  · exact .inr (.inr ⟨_, rfl, rfl⟩)
  · exact .inr (.inl ⟨rfl, hr⟩)
  · exact .inl ⟨hc, hs.trans hr⟩

/-- Settles O6: the start of an iteration changes neither pc nor memory, so `execute_one` fetches and decodes the
instruction at pc. -/
theorem stepRunsTheDecodedInstruction : Obligations.StepRunsTheDecodedInstruction := by
  intro s i _ hf
  obtain ⟨t, ht, -⟩ := exec_shape i (beginIteration s)
  have hrun : executeOne (beginIteration s) = .next t :=
    (executeOne_of_fetches ((fetches_beginIteration s i).2 hf)).trans ht
  rw [step_of_running hf.1 hrun, ht]

end Sys2Proof.Proofs

/-! # Control transfer (41_control_transfer.md) -/

namespace Sys2Proof.Machine

variable {i : Instr} {k : FaultKind} {e : Effect} {s t u : State} {nnn : Addr12} {a : Word} {rest : List Word}

/-! ## What an instruction runs to -/

theorem runs_of_complete {P : State → Prop} (h : exec i s = complete e u) (hP : P (finish e u)) : Runs i s P :=
  ⟨finish e u, h, hP⟩

theorem runs_of_raise (h : exec i s = raise k s) : Runs i s (TookFault k s) :=
  ⟨faultState k s, h, tookFault_faultState k s⟩

/-! ## The frame of a completed instruction -/

theorem Effect.jump_ne_halt (a : Word) : Effect.jump a ≠ .halt := nofun

theorem ticked_finish (he : e ≠ .halt) (hd : u.delay = s.delay) (hs : u.sound = s.sound) :
    Ticked s (finish e u) := by
  rw [finish_of_ne_halt e u he, Ticked, ← hd, ← hs]
  exact ⟨countDown_toNat u.delay, countDown_toNat u.sound⟩

theorem continued_finish (he : e ≠ .halt) (hu : Wrote s u) : Continued s (finish e u) := by
  rw [finish_of_ne_halt e u he]
  exact ⟨rfl, hu.status, hu.host⟩

/-- An instruction that writes at most the stack has the frame of a control transfer. -/
theorem controlOnly_finish_setStack (he : e ≠ .halt) (s : State) (l : List Word) :
    ControlOnly s (finish e (s.setStack l)) := by
  have ticked : Ticked s (finish e (s.setStack l)) := ticked_finish he rfl rfl
  have continued : Continued s (finish e (s.setStack l)) := continued_finish he ⟨rfl, rfl, sameHost_refl s⟩
  rw [finish_of_ne_halt e _ he] at ticked continued ⊢
  exact ⟨fun _ _ => rfl, rfl, fun _ => rfl, fun _ _ => rfl, rfl, ticked, continued⟩

theorem controlOnly_finish (he : e ≠ .halt) (s : State) : ControlOnly s (finish e s) :=
  controlOnly_finish_setStack he s s.stack

/-! ## 00EE and 2NNN, by the depth of the stack (R25) -/

theorem exec_ret_of_append (h : s.stack = rest ++ [a]) : exec .ret s = complete (.jump a) (s.setStack rest) := by
  simp only [exec, execRet, h, pop_append]

theorem exec_ret_of_empty (h : s.stack = []) : exec .ret s = raise .stackUnderflow s := by
  simp only [exec, execRet, h, pop_nil]

theorem exec_call_of_room (h : s.stack.length < 16) :
    exec (.call nnn) s = complete (.jump (zext16 nnn)) (s.setStack (s.stack ++ [s.pc + 2#16])) := by
  simp only [exec, execCall, push, if_pos h]

theorem exec_call_of_full (h : 16 ≤ s.stack.length) : exec (.call nnn) s = raise .stackOverflow s := by
  simp only [exec, execCall, push, if_neg h.not_gt]

/-- A CALL that completes has stacked its return address (R122). -/
theorem stack_of_call_completed (h : exec (.call nnn) s = .next t) (hr : t.returned = some .continued) :
    t.stack = s.stack ++ [s.pc + 2#16] := by
  rcases Nat.lt_or_ge s.stack.length 16 with hl | hl
  · rw [exec_call_of_room hl] at h
    obtain rfl := Host.Outcome.next.inj h
    rfl
  · rw [exec_call_of_full hl] at h
    obtain rfl := Host.Outcome.next.inj h
    cases hr

end Sys2Proof.Machine

namespace Sys2Proof.Proofs

open Sys2Proof.Machine

/-- Settles O19: the completed CALL stacked `pc + 2`, so RET finds it last and pops it. -/
theorem callThenReturnComesBack : Obligations.CallThenReturnComesBack := by
  intro nnn s t u hpc hcall hc hu
  have hstack : u.stack = s.stack ++ [s.pc + 2#16] := hu.trans (stack_of_call_completed hcall hc)
  exact runs_of_complete (exec_ret_of_append hstack) ⟨newPc_increment_toNat s.pc hpc, rfl, rfl⟩

/-- Settles O15: RET pops the last entry and jumps to it, and raises the fault where there is none. -/
theorem returnPopsIntoPc : Obligations.ReturnPopsIntoPc := fun s =>
  ⟨fun rest _ hs =>
    runs_of_complete (exec_ret_of_append hs) ⟨rfl, rfl, controlOnly_finish_setStack (Effect.jump_ne_halt _) s rest⟩,
  fun hs => runs_of_raise (exec_ret_of_empty hs)⟩

/-- Settles O16: the effect is a jump to NNN, from no write at all. -/
theorem jumpSetsPc : Obligations.JumpSetsPc := fun nnn s =>
  runs_of_complete rfl ⟨zext16_toNat nnn, rfl, controlOnly_finish (Effect.jump_ne_halt _) s⟩

/-- Settles O17: CALL pushes the exact `pc + 2` where there is room, and raises the fault where there is none. -/
theorem callPushesTheReturnAddress : Obligations.CallPushesTheReturnAddress := by
  intro nnn s
  constructor
  · intro hpc hl
    have hpush : ∃ a, s.stack ++ [s.pc + 2#16] = s.stack ++ [a] ∧ a.toNat = s.pc.toNat + 2 :=
      ⟨s.pc + 2#16, rfl, newPc_increment_toNat s.pc hpc⟩
    exact runs_of_complete (exec_call_of_room hl)
      ⟨zext16_toNat nnn, hpush, controlOnly_finish_setStack (Effect.jump_ne_halt _) s _⟩
  · intro hl
    exact runs_of_raise (exec_call_of_full hl.ge)

/-- Settles O18: the effect is a jump to the exact sum, from no write at all. -/
theorem jumpV0AddsV0 : Obligations.JumpV0AddsV0 := fun nnn s =>
  runs_of_complete rfl ⟨jumpV0Target_toNat s nnn, rfl, controlOnly_finish (Effect.jump_ne_halt _) s⟩

end Sys2Proof.Proofs

/-! # Conditional skips (42_skips.md) -/

namespace Sys2Proof.Machine

variable {i : Instr} {p : Bool} {c : Prop} {s : State} {x : Reg} {k : Fin 16} {b : Byte}

/-! ## What a skip runs to, by its condition (R105) -/

theorem Effect.skip_ne_halt (p : Bool) : Effect.skip p ≠ .halt := nofun

/-- A skip with the condition `c` moves pc by 4 where `c` holds and by 2 elsewhere, and keeps all but the timers. -/
theorem runs_of_skip_if [Decidable c] (h : exec i s = complete (.skip p) s) (hc : p = true ↔ c)
    (hpc : s.pc.toNat ≤ 4094) :
    Runs i s fun t => t.pc.toNat = s.pc.toNat + (if c then 4 else 2) ∧ t.stack = s.stack ∧ ControlOnly s t := by
  have moved : (newPc (.skip p) s.pc).toNat = s.pc.toNat + (if c then 4 else 2) := by
    simp only [newPc_skip_toNat p s.pc hpc, hc]
  exact runs_of_complete h ⟨moved, rfl, controlOnly_finish (Effect.skip_ne_halt p) s⟩

/-- A skip with the condition `¬ c` moves pc by 2 where `c` holds and by 4 elsewhere. -/
theorem runs_of_skip_unless [Decidable c] (h : exec i s = complete (.skip p) s) (hc : p = true ↔ ¬ c)
    (hpc : s.pc.toNat ≤ 4094) :
    Runs i s fun t => t.pc.toNat = s.pc.toNat + (if c then 2 else 4) ∧ t.stack = s.stack ∧ ControlOnly s t := by
  simpa only [ite_not] using runs_of_skip_if h hc hpc

/-! ## EX9E and EXA1, by the number in VX (R144, R145) -/

theorem keyNumber_of_toNat (h : b.toNat = k.val) : keyNumber b = some k := by
  rcases keyNumber_cases b with ⟨j, hj, hv⟩ | ⟨-, hb⟩
  · rw [hj, Fin.ext (hv.trans h)]
  · exact absurd k.isLt (by omega)

theorem keyNumber_of_gt (h : 15 < b.toNat) : keyNumber b = none := by
  rcases keyNumber_cases b with ⟨j, -, hv⟩ | ⟨hn, -⟩
  · exact absurd j.isLt (by omega)
  · exact hn

theorem exec_skipKey_of_key (h : keyNumber (s.getV x) = some k) :
    exec (.skipKey x) s = complete (.skip (s.snapshot.pressed k)) s := by
  simp only [exec, execSkipKey, h]

theorem exec_skipNotKey_of_key (h : keyNumber (s.getV x) = some k) :
    exec (.skipNotKey x) s = complete (.skip (!s.snapshot.pressed k)) s := by
  simp only [exec, execSkipNotKey, h]

theorem exec_skipKey_of_no_key (h : keyNumber (s.getV x) = none) :
    exec (.skipKey x) s = raise (.keyIndexOutOfRange (s.getV x)) s := by
  simp only [exec, execSkipKey, h]

theorem exec_skipNotKey_of_no_key (h : keyNumber (s.getV x) = none) :
    exec (.skipNotKey x) s = raise (.keyIndexOutOfRange (s.getV x)) s := by
  simp only [exec, execSkipNotKey, h]

end Sys2Proof.Machine

namespace Sys2Proof.Proofs

open Sys2Proof.Machine

/-- Settles O20: the conditions are `VX = NN` and its negation. -/
theorem immediateSkips : Obligations.ImmediateSkips := fun _ _ _ hpc =>
  ⟨runs_of_skip_if rfl decide_eq_true_iff hpc, runs_of_skip_unless rfl decide_eq_true_iff hpc⟩

/-- Settles O21: the conditions are `VX = VY` and its negation. -/
theorem registerSkips : Obligations.RegisterSkips := fun _ _ _ hpc =>
  ⟨runs_of_skip_if rfl decide_eq_true_iff hpc, runs_of_skip_unless rfl decide_eq_true_iff hpc⟩

/-- Settles O22: VX numbers the key `k`, and the conditions are slot `k` of the snapshot and its negation. -/
theorem keySkips : Obligations.KeySkips := by
  intro x k s hpc hx
  have hk : keyNumber (s.getV x) = some k := keyNumber_of_toNat hx
  exact ⟨runs_of_skip_if (exec_skipKey_of_key hk) Iff.rfl hpc,
    runs_of_skip_unless (exec_skipNotKey_of_key hk) Bool.not_iff_not hpc⟩

/-- Settles O23: VX numbers no key, so both forms raise the fault before any write. -/
theorem keyIndexAbove15Faults : Obligations.KeyIndexAbove15Faults := by
  intro x s hx
  have hk : keyNumber (s.getV x) = none := keyNumber_of_gt hx
  exact ⟨runs_of_raise (exec_skipKey_of_no_key hk), runs_of_raise (exec_skipNotKey_of_no_key hk)⟩

end Sys2Proof.Proofs

/-! # Register loads and arithmetic (43_alu.md) -/

namespace Sys2Proof.Machine

variable {i : Instr} {s : State} {x y : Reg} {b flag src : Byte} {P Q : State → Prop}

theorem Runs.mono (h : Runs i s P) (hPQ : ∀ t, P t → Q t) : Runs i s Q := by
  obtain ⟨t, ht, hP⟩ := h
  exact ⟨t, ht, hPQ t hP⟩

/-! ## The frame of an instruction that writes registers (R110, R347) -/

theorem Effect.increment_ne_halt : Effect.increment ≠ .halt := nofun

theorem sameRegsExcept_setV (s : State) (x : Reg) (b : Byte) : SameRegsExcept [x] s (s.setV x b) := by
  intro r hr
  rw [State.getV_setV, if_neg (List.mem_singleton.not.mp hr)]

theorem sameRegsExcept_setVFlag (s : State) (x : Reg) (b flag : Byte) :
    SameRegsExcept [x, vf] s (s.setVFlag x b flag) := by
  intro r hr
  obtain ⟨hx, hf⟩ : r ≠ x ∧ r ≠ vf := by simpa using hr
  rw [State.getV_setVFlag, if_neg hf, if_neg hx]

/-- Writing the register file, whatever its new content, changes no more than the registers that differ. -/
theorem registersOnly_setRegs {l : List Reg} {w : Vector Byte 16} (hw : SameRegsExcept l s (s.setRegs w))
    (hpc : s.pc.toNat ≤ 4094) : RegistersOnly l s (finish .increment (s.setRegs w)) := by
  have ticked : Ticked s (finish .increment (s.setRegs w)) := ticked_finish Effect.increment_ne_halt rfl rfl
  have advanced : Advanced s (finish .increment (s.setRegs w)) := newPc_increment_toNat s.pc hpc
  have continued : Continued s (finish .increment (s.setRegs w)) :=
    continued_finish Effect.increment_ne_halt ⟨rfl, rfl, sameHost_refl s⟩
  exact ⟨hw, rfl, rfl, fun _ => rfl, fun _ _ => rfl, rfl, ticked, advanced, continued⟩

/-- An instruction whose one write is VX. -/
theorem runs_of_setV (h : exec i s = complete .increment (s.setV x b)) (hpc : s.pc.toNat ≤ 4094) :
    Runs i s fun t => t.getV x = b ∧ RegistersOnly [x] s t :=
  runs_of_complete h ⟨by simp, registersOnly_setRegs (sameRegsExcept_setV s x b) hpc⟩

/-- An instruction that writes VX and then VF: for X = F the flag is what stays (R21, R347). -/
theorem runs_of_setVFlag (h : exec i s = complete .increment (s.setVFlag x b flag)) (hpc : s.pc.toNat ≤ 4094) :
    Runs i s fun t => (x ≠ vf → t.getV x = b) ∧ t.getV vf = flag ∧ RegistersOnly [x, vf] s t := by
  have result : x ≠ vf → (finish .increment (s.setVFlag x b flag)).getV x = b := fun hx => by simp [hx]
  exact runs_of_complete h ⟨result, by simp, registersOnly_setRegs (sameRegsExcept_setVFlag s x b flag) hpc⟩

/-! ## Results and flags (R166 to R170) -/

theorem carryFlag_toNat (x y : Byte) : (carryFlag x y).toNat = if 255 < x.toNat + y.toNat then 1 else 0 := by
  simp only [carryFlag, flagByte_toNat, decide_eq_true_eq]

theorem notBorrowFlag_toNat (x y : Byte) : (notBorrowFlag x y).toNat = if y.toNat ≤ x.toNat then 1 else 0 := by
  simp only [notBorrowFlag, flagByte_toNat, decide_eq_true_eq]

/-- The difference modulo 256 is what added to the subtrahend gives the minuend. -/
theorem diff8_add_toNat (x y : Byte) : ((diff8 x y).toNat + y.toNat) % 256 = x.toNat := by
  have hx := x.isLt
  have hy := y.isLt
  rw [diff8_toNat]
  omega

theorem shr8_eq (b : Byte) : shr8 b = b >>> 1 :=
  BitVec.eq_of_toNat_eq (by simp [Nat.shiftRight_eq_div_pow])

theorem shl8_eq (b : Byte) : shl8 b = b <<< 1 :=
  BitVec.eq_of_toNat_eq (by simp [Nat.shiftLeft_eq])

/-- A flag taken from bit `k` is that bit of the number. -/
theorem flagByte_getLsbD_toNat (b : Byte) (k : Nat) : (flagByte (b.getLsbD k)).toNat = b.toNat / 2 ^ k % 2 := by
  rw [← Nat.toNat_testBit, flagByte_toNat]
  exact (Bool.cond_eq_ite _ _ _).symm

theorem lsbFlag_eq (b : Byte) : lsbFlag b = flagByte (b.getLsbD 0) := by
  refine BitVec.eq_of_toNat_eq ?_
  rw [lsbFlag_toNat, flagByte_getLsbD_toNat, pow_zero, Nat.div_one]

theorem msbFlag_eq (b : Byte) : msbFlag b = flagByte (b.getLsbD 7) := by
  have hb := b.isLt
  refine BitVec.eq_of_toNat_eq ?_
  rw [msbFlag_toNat, flagByte_getLsbD_toNat]
  omega

theorem getLsbD_shr8 (b : Byte) (k : Nat) : (shr8 b).getLsbD k = b.getLsbD (k + 1) := by
  rw [shr8_eq, BitVec.getLsbD_ushiftRight, Nat.add_comm]

theorem getLsbD_zero_shl8 (b : Byte) : (shl8 b).getLsbD 0 = false := by
  simp [shl8_eq]

theorem getLsbD_succ_shl8 (b : Byte) {k : Nat} (hk : k < 7) : (shl8 b).getLsbD (k + 1) = b.getLsbD k := by
  have inside : k + 1 < 8 := Nat.succ_lt_succ hk
  simp [shl8_eq, BitVec.getLsbD_shiftLeft, inside, -BitVec.getLsbD_eq_getElem]

/-- `SHIFT_SOURCE` has two values, and each names the register that is shifted (D12). -/
theorem shiftSource_eq (hx : s.params.shiftSource = .vx → src = s.getV x)
    (hy : s.params.shiftSource = .vy → src = s.getV y) : shiftSource s x y = src := by
  unfold shiftSource
  split
  · exact (hx ‹_›).symm
  · exact (hy ‹_›).symm

/-- A subtraction of `q` from `p` into VX: 8XY5 and 8XY7 are this for the two orders of VX and VY. -/
theorem runs_of_subtraction {p q : Byte}
    (h : exec i s = complete .increment (s.setVFlag x (diff8 p q) (notBorrowFlag p q))) (hpc : s.pc.toNat ≤ 4094) :
    Runs i s fun t => (x ≠ vf → ((t.getV x).toNat + q.toNat) % 256 = p.toNat) ∧
      (t.getV vf).toNat = (if q.toNat ≤ p.toNat then 1 else 0) ∧ RegistersOnly [x, vf] s t :=
  (runs_of_setVFlag h hpc).mono fun _ ⟨difference, notBorrow, frame⟩ =>
    ⟨fun hx => difference hx ▸ diff8_add_toNat p q, notBorrow ▸ notBorrowFlag_toNat p q, frame⟩

end Sys2Proof.Machine

namespace Sys2Proof.Proofs

open Sys2Proof.Machine

/-- Settles O24: the one write is VX, with NN or the old VY. -/
theorem loadsAndCopies : Obligations.LoadsAndCopies := fun _ _ _ _ hpc =>
  ⟨runs_of_setV rfl hpc, runs_of_setV rfl hpc⟩

/-- Settles O25: the one write is VX, with the truncated sum. -/
theorem addImmediateWrapsWithoutFlag : Obligations.AddImmediateWrapsWithoutFlag := fun x nn s hpc =>
  (runs_of_setV rfl hpc).mono fun _ ⟨sum, frame⟩ => ⟨sum ▸ sum8_toNat (s.getV x) nn, frame⟩

/-- Settles O26: the one write is VX, and each operation works bit by bit. -/
theorem logicResultsBitByBit : Obligations.LogicResultsBitByBit := fun _ _ _ hpc =>
  ⟨(runs_of_setV rfl hpc).mono fun _ ⟨result, frame⟩ => ⟨fun _ _ => result ▸ BitVec.getLsbD_or, frame⟩,
    (runs_of_setV rfl hpc).mono fun _ ⟨result, frame⟩ => ⟨fun _ _ => result ▸ BitVec.getLsbD_and, frame⟩,
    (runs_of_setV rfl hpc).mono fun _ ⟨result, frame⟩ => ⟨fun _ _ => result ▸ BitVec.getLsbD_xor, frame⟩⟩

/-- Settles O27: VX takes the truncated sum, then VF the carry of the exact sum of the old values. -/
theorem addWithCarry : Obligations.AddWithCarry := fun x y s hpc =>
  (runs_of_setVFlag rfl hpc).mono fun _ ⟨sum, carry, frame⟩ =>
    ⟨fun hx => sum hx ▸ sum8_toNat (s.getV x) (s.getV y), carry ▸ carryFlag_toNat (s.getV x) (s.getV y), frame⟩

/-- Settles O28: 8XY5 subtracts VY from VX, 8XY7 VX from VY. -/
theorem subtractWithNotBorrow : Obligations.SubtractWithNotBorrow := fun _ _ _ hpc =>
  ⟨runs_of_subtraction rfl hpc, runs_of_subtraction rfl hpc⟩

/-- Settles O29: the source is `src` for either parameter value; a shift moves its bits by one and VF takes the bit
that falls out. -/
theorem shiftsByOneForEitherSource : Obligations.ShiftsByOneForEitherSource := by
  intro x y s hpc src hvx hvy
  obtain rfl : shiftSource s x y = src := shiftSource_eq hvx hvy
  constructor
  · refine (runs_of_setVFlag rfl hpc).mono fun t ⟨shifted, out, frame⟩ => ⟨fun hx k _ => ?_, ?_, frame⟩
    · rw [shifted hx, getLsbD_shr8]
    · rw [out, lsbFlag_eq, flagByte_toNat]
  · refine (runs_of_setVFlag rfl hpc).mono fun t ⟨shifted, out, frame⟩ => ⟨fun hx => ?_, ?_, frame⟩
    · rw [shifted hx]
      exact ⟨getLsbD_zero_shl8 _, fun _ => getLsbD_succ_shl8 _⟩
    · rw [out, msbFlag_eq, flagByte_toNat]

/-- Settles O30: VX takes the draw masked by NN, whatever the draw is, and the draw is counted. -/
theorem randomIsTheDrawMasked : Obligations.RandomIsTheDrawMasked := by
  intro x nn s hpc
  have masked (k : Nat) : (((s.setV x (Config.randomByte s.draws &&& nn)).countDraw).getV x).getLsbD k =
      (nn.getLsbD k && (Config.randomByte s.draws).getLsbD k) := by
    simp [Bool.and_comm]
  obtain ⟨regs, index, stack, mem, pixels, -, ticked, advanced, continued⟩ :=
    registersOnly_setRegs (sameRegsExcept_setV s x (Config.randomByte s.draws &&& nn)) hpc
  exact runs_of_complete rfl
    ⟨fun k _ => masked k, regs, index, stack, mem, pixels, rfl, ticked, advanced, continued⟩

end Sys2Proof.Proofs

/-! # Index register and memory blocks (44_index_memory.md) -/

namespace Sys2Proof.Machine

variable {i : Instr} {s t : State} {x k : Reg} {a : Word} {n : Nat}

/-! ## The frame of an instruction that writes I, memory or a block of registers (R206) -/

theorem sameRegsExcept_refl (l : List Reg) (s : State) : SameRegsExcept l s s := fun _ _ => rfl

/-- Writes to memory and I add nothing to what a write of the register file changes of the rest. -/
theorem indexAndRegisters_finish {l : List Reg} {w : Vector Byte 16} (hw : SameRegsExcept l s (s.setRegs w))
    (m : Memory) (a : Word) (hpc : s.pc.toNat ≤ 4094) :
    IndexAndRegisters l s (finish .increment (((s.setRegs w).setMem m).setIndex a)) := by
  obtain ⟨regs, -, stack, -, pixels, draws, ticked, advanced, continued⟩ := registersOnly_setRegs hw hpc
  exact ⟨regs, stack, pixels, draws, ticked, advanced, continued⟩

/-- The frame of a store, which writes no register. -/
theorem indexAndRegisters_finish_store (m : Memory) (a : Word) (hpc : s.pc.toNat ≤ 4094) :
    IndexAndRegisters [] s (finish .increment ((s.setMem m).setIndex a)) :=
  indexAndRegisters_finish (sameRegsExcept_refl [] s) m a hpc

/-- A number that fits I is held exactly (R23). -/
theorem toNat_ofNat_of_fits (h : n ≤ 0xFFFF) : (BitVec.ofNat 16 n).toNat = n := by
  rw [BitVec.toNat_ofNat]
  exact Nat.mod_eq_of_lt (Nat.lt_succ_of_le h)

/-- An instruction whose one write is I. -/
theorem runs_of_setIndex (h : exec i s = complete .increment (s.setIndex a)) (ha : a.toNat = n)
    (hpc : s.pc.toNat ≤ 4094) :
    Runs i s fun t => t.index.toNat = n ∧ SameMemory s t ∧ IndexAndRegisters [] s t :=
  runs_of_complete h ⟨ha, fun _ => rfl, indexAndRegisters_finish_store s.mem a hpc⟩

/-! ## What each instruction runs to where its check passes or fails (R201, R203 to R205) -/

theorem exec_addIndex_of_fits (h : s.index.toNat + (s.getV x).toNat ≤ 0xFFFF) :
    exec (.addIndex x) s = complete .increment (s.setIndex (BitVec.ofNat 16 (s.index.toNat + (s.getV x).toNat))) :=
  if_neg h.not_gt

theorem exec_addIndex_of_overflow (h : 0xFFFF < s.index.toNat + (s.getV x).toNat) :
    exec (.addIndex x) s = raise .indexOverflow s :=
  if_pos h

theorem exec_storeBcd_of_inRange (h : s.index.toNat + 2 ≤ 4095) :
    exec (.storeBcd x) s =
      complete .increment (s.setMem (s.mem.writeBlock s.index.toNat (bcdDigits (s.getV x)))) := by
  have inRange : rangeFault s.index.toNat 3 = none := (rangeFault_none_iff _ _).2 (.inr (by omega))
  simp only [exec, execStoreBcd, indexAddr, Nat.add_zero, inRange]

theorem rangeFault_register_block (h : s.index.toNat + x.val ≤ 4095) :
    rangeFault s.index.toNat (x.val + 1) = none :=
  (rangeFault_none_iff _ _).2 (.inr (by omega))

theorem exec_storeRegs_of_inRange (h : s.index.toNat + x.val ≤ 4095) :
    exec (.storeRegs x) s = complete .increment
      ((s.setMem (s.mem.writeBlock s.index.toNat (regBlock s x))).setIndex
        (BitVec.ofNat 16 (s.index.toNat + (x.val + 1)))) := by
  simp only [exec, execStoreRegs, indexAddr, Nat.add_zero, rangeFault_register_block h]

theorem exec_loadRegs_of_inRange (h : s.index.toNat + x.val ≤ 4095) :
    exec (.loadRegs x) s = complete .increment
      ((s.setRegs (loadBlock s.mem s.index.toNat s.v (x.val + 1))).setIndex
        (BitVec.ofNat 16 (s.index.toNat + (x.val + 1)))) := by
  simp only [exec, execLoadRegs, indexAddr, Nat.add_zero, rangeFault_register_block h]

/-- An FX55 that completes stored within memory, and left the state that its equation names. -/
theorem storeRegs_completed (h : exec (.storeRegs x) s = .next t) (hr : t.returned = some .continued) :
    s.index.toNat + x.val ≤ 4095 ∧
      t = finish .increment ((s.setMem (s.mem.writeBlock s.index.toNat (regBlock s x))).setIndex
        (BitVec.ofNat 16 (s.index.toNat + (x.val + 1)))) := by
  obtain ⟨k, rfl⟩ | ⟨checked, -⟩ := exec_stores h
  · cases hr
  · have inRange : s.index.toNat + x.val ≤ 4095 := by
      rw [length_storedBytes_storeRegs, rangeFault_none_iff] at checked
      omega
    rw [exec_storeRegs_of_inRange inRange] at h
    exact ⟨inRange, (Host.Outcome.next.inj h).symm⟩

/-! ## The blocks -/

/-- Digit `j` of a byte, counted from the hundreds, has the weight `10 ^ (2 - j)` (R203). -/
theorem bcdDigits_getElem_toNat (b : Byte) {j : Nat} (hj : j < (bcdDigits b).length) :
    (bcdDigits b)[j].toNat = b.toNat / 10 ^ (2 - j) % 10 := by
  have := b.isLt
  match j, hj with
  | 0, _ | 1, _ | 2, _ =>
    simp only [bcdDigits, List.getElem_cons_zero, List.getElem_cons_succ, trunc8_toNat]
    omega

theorem read_writeBlock_bcdDigits {m : Memory} (hm : m.wf) (b : Byte) (base : Nat) {j : Nat} (hj : j < 3) :
    ((m.writeBlock base (bcdDigits b)).read (base + j)).toNat = b.toNat / 10 ^ (2 - j) % 10 := by
  have inside : j < (bcdDigits b).length := hj
  rw [Memory.read_writeBlock_inside _ _ hm.1 _ _ inside, bcdDigits_getElem_toNat]

theorem read_writeBlock_regBlock {m : Memory} (hm : m.wf) (s : State) (base : Nat) (hk : k ≤ x) :
    (m.writeBlock base (regBlock s x)).read (base + k.val) = s.getV k := by
  rw [Memory.read_writeBlock_inside _ _ hm.1 _ _ (by rw [regBlock_length]; exact Nat.lt_succ_of_le hk),
    regBlock_getElem s x k hk]

/-- FX65 loads the registers up to X from the block and leaves the others (R205). -/
theorem getV_setRegs_loadBlock (s : State) (m : Memory) (base : Nat) (x k : Reg) :
    (s.setRegs (loadBlock m base s.v (x.val + 1))).getV k = if k ≤ x then m.read (base + k.val) else s.getV k := by
  rw [State.getV_setRegs, loadBlock_getElem]
  exact if_congr Nat.lt_succ_iff rfl rfl

theorem mem_keysUpTo : k ∈ allKeys.filter (fun j => decide (j ≤ x)) ↔ k ≤ x := by
  simp only [List.mem_filter, mem_allKeys, true_and, decide_eq_true_eq]

/-- `I + X + 1` is exact where the block lies in memory. -/
theorem index_after_block (h : s.index.toNat + x.val ≤ 4095) :
    (BitVec.ofNat 16 (s.index.toNat + (x.val + 1))).toNat = s.index.toNat + x.val + 1 :=
  toNat_ofNat_of_fits (by omega)

end Sys2Proof.Machine

namespace Sys2Proof.Proofs

open Sys2Proof.Machine

/-- Settles O37: the completed FX55 passed the range check that FX65 makes from the same I, and FX65 reads back, byte
by byte, the block that FX55 wrote. -/
theorem storeThenLoadRestoresRegisters : Obligations.StoreThenLoadRestoresRegisters := by
  intro x s t u hm hstore hc hmem hindex
  obtain ⟨inRange, rfl⟩ := storeRegs_completed hstore hc
  rw [← hindex] at inRange
  refine runs_of_complete (exec_loadRegs_of_inRange inRange) ⟨rfl, ?_, fun k hk => ?_⟩
  · change BitVec.ofNat 16 (u.index.toNat + (x.val + 1)) = BitVec.ofNat 16 (s.index.toNat + (x.val + 1))
    rw [hindex]
  · have stored : u.mem.read (u.index.toNat + k.val) = s.getV k := by
      rw [hmem, hindex]
      exact read_writeBlock_regBlock hm s s.index.toNat hk
    exact (getV_setRegs_loadBlock u u.mem u.index.toNat x k).trans ((if_pos hk).trans stored)

/-- Settles O31: the one write is I, and neither NNN nor the product exceeds 16 bits. -/
theorem loadIndexAndFontAddress : Obligations.LoadIndexAndFontAddress := by
  intro nnn x s hpc
  have product : (BitVec.ofNat 16 (5 * (s.getV x).toNat)).toNat = 5 * (s.getV x).toNat :=
    toNat_ofNat_of_fits (by have := (s.getV x).isLt; omega)
  exact ⟨runs_of_setIndex rfl (zext16_toNat nnn) hpc, runs_of_setIndex rfl product hpc⟩

/-- Settles O32: a sum that fits I is the one write, and a larger one raises the fault. -/
theorem addIndexIsExact : Obligations.AddIndexIsExact := by
  intro x s
  constructor
  · intro hpc hfits
    exact runs_of_setIndex (exec_addIndex_of_fits hfits) (toNat_ofNat_of_fits hfits) hpc
  · intro hover
    exact runs_of_raise (exec_addIndex_of_overflow hover)

/-- Settles O33: the block at I is the digits of VX, and the write leaves the rest of memory. -/
theorem storeBcdWritesThreeDigits : Obligations.StoreBcdWritesThreeDigits := by
  intro x s hm hpc hr
  have digit {j : Nat} (hj : j < 3) := read_writeBlock_bcdDigits hm (s.getV x) s.index.toNat hj
  refine runs_of_complete (exec_storeBcd_of_inRange hr)
    ⟨?_, fun j hj => ?_, fun b hb => ?_, rfl, indexAndRegisters_finish_store _ s.index hpc⟩
  · have hundreds := digit (j := 0) (by decide)
    have tens := digit (j := 1) (by decide)
    have units := digit (j := 2) (by decide)
    have := (s.getV x).isLt
    simp only [Nat.add_zero, Nat.reduceSub, Nat.reducePow] at hundreds tens units
    simp only [finish_increment_mem, State.setMem_mem]
    omega
  · exact Nat.le_of_lt_succ ((digit hj).trans_lt (Nat.mod_lt _ (by decide)))
  · exact Memory.read_writeBlock_outside (bcdDigits (s.getV x)) s.mem _ b hb

/-- Settles O34: the block at I is V0..VX, and the writes leave the rest of memory and every register. -/
theorem storeRegsWritesTheBlock : Obligations.StoreRegsWritesTheBlock := by
  intro x s hm hpc hr
  refine runs_of_complete (exec_storeRegs_of_inRange hr)
    ⟨fun k hk => read_writeBlock_regBlock hm s _ hk, fun b hb => ?_, index_after_block hr,
      indexAndRegisters_finish_store _ _ hpc⟩
  exact Memory.read_writeBlock_outside (regBlock s x) s.mem _ b (by rwa [regBlock_length])

/-- Settles O35: the registers up to X take the bytes from I on, the others stay, and memory is not written. -/
theorem loadRegsReadsTheBlock : Obligations.LoadRegsReadsTheBlock := by
  intro x s hpc hr
  have loaded := getV_setRegs_loadBlock s s.mem s.index.toNat x
  have above {k : Reg} (hk : ¬ k ≤ x) := (loaded k).trans (if_neg hk)
  refine runs_of_complete (exec_loadRegs_of_inRange hr)
    ⟨fun k hk => (loaded k).trans (if_pos hk), fun k hk => above hk.not_ge, index_after_block hr, fun _ => rfl,
      indexAndRegisters_finish (fun k hk => above (mem_keysUpTo.not.1 hk)) s.mem _ hpc⟩

end Sys2Proof.Proofs

/-! # The framebuffer and its two instructions (45_display.md) -/

namespace Sys2Proof.Machine

variable {s : State} {f : Framebuffer} {x x' y y' : Byte} {sprite : List Byte} {row : Byte} {c r : Nat}
  {px : Fin 64} {py : Fin 32}

/-! ## A draw by the cells of its sprite (R232, R233, R235) -/

theorem lands_iff : Lands x y c r px py ↔ px = targetX x c ∧ py = targetY y r := by
  rw [Lands, ← targetX_val, ← targetY_val, Fin.val_inj, Fin.val_inj]

/-- The pixel under a cell of the sprite is changed by that cell's bit, once. -/
theorem fbDraw_pixel_of_lands (hl : sprite.length ≤ 32) (hrow : sprite[r]? = some row) (hc : c < 8)
    (h : Lands x y c r px py) : (fbDraw f x y sprite).fb.pixel px py = (f.pixel px py ^^ row.getLsbD (7 - c)) := by
  obtain ⟨rfl, rfl⟩ := lands_iff.1 h
  rw [← spriteBit_eq]
  simpa only [Nat.zero_add, fbDraw] using
    drawRows_pixel_target x y sprite 0 ⟨f, false⟩ r c row (by omega) hrow hc

theorem fbDraw_pixel_of_no_cell (h : ∀ r c, r < sprite.length → c < 8 → ¬ Lands x y c r px py) :
    (fbDraw f x y sprite).fb.pixel px py = f.pixel px py :=
  drawRows_pixel_other x y sprite 0 ⟨f, false⟩ px py fun k c hk hc hat =>
    h k c hk hc (lands_iff.2 (by rwa [Nat.zero_add] at hat))

/-- A pixel lies under a cell of the sprite, and takes its bit, or the draw leaves it. -/
theorem fbDraw_pixel_cases (hl : sprite.length ≤ 32) (x y : Byte) (px : Fin 64) (py : Fin 32) :
    (∃ r row c, sprite[r]? = some row ∧ c < 8 ∧ Lands x y c r px py ∧
      ∀ f, (fbDraw f x y sprite).fb.pixel px py = (f.pixel px py ^^ row.getLsbD (7 - c))) ∨
    ∀ f, (fbDraw f x y sprite).fb.pixel px py = f.pixel px py := by
  by_cases h : ∃ r c, r < sprite.length ∧ c < 8 ∧ Lands x y c r px py
  · obtain ⟨r, c, hr, hc, hat⟩ := h
    have hrow : sprite[r]? = some sprite[r] := List.getElem?_eq_getElem hr
    exact .inl ⟨r, sprite[r], c, hrow, hc, hat, fun f => fbDraw_pixel_of_lands hl hrow hc hat⟩
  · exact .inr fun f => fbDraw_pixel_of_no_cell fun r c hr hc hat => h ⟨r, c, hr, hc, hat⟩

/-- The collision is over the pixels before the draw, although the loop reads each as it comes to it. -/
theorem fbDraw_collision_iff (hl : sprite.length ≤ 32) :
    (fbDraw f x y sprite).collision = true ↔
      ∃ r row c px py, sprite[r]? = some row ∧ c < 8 ∧ Lands x y c r px py ∧
        f.pixel px py = true ∧ row.getLsbD (7 - c) = true := by
  rw [fbDraw, drawRows_collision x y sprite 0 ⟨f, false⟩ (by omega)]
  simp only [Bool.false_eq_true, false_or, Nat.zero_add, spriteBit_eq]
  constructor
  · rintro ⟨r, c, row, hrow, hc, bit, lit⟩
    exact ⟨r, row, c, _, _, hrow, hc, lands_iff.2 ⟨rfl, rfl⟩, lit, bit⟩
  · rintro ⟨r, row, c, px, py, hrow, hc, hat, lit, bit⟩
    obtain ⟨rfl, rfl⟩ := lands_iff.1 hat
    exact ⟨r, c, row, hrow, hc, bit, lit⟩

/-- A lit pixel under a 1 bit is a pixel that goes from 1 to 0 (R233). -/
theorem fbDraw_collision_iff_erased (hl : sprite.length ≤ 32) :
    (fbDraw f x y sprite).collision = true ↔
      ∃ px py, f.pixel px py = true ∧ (fbDraw f x y sprite).fb.pixel px py = false := by
  rw [fbDraw_collision_iff hl]
  constructor
  · rintro ⟨r, row, c, px, py, hrow, hc, hat, lit, bit⟩
    exact ⟨px, py, lit, by rw [fbDraw_pixel_of_lands hl hrow hc hat, lit, bit, Bool.xor_self]⟩
  · rintro ⟨px, py, lit, dark⟩
    obtain ⟨r, row, c, hrow, hc, hat, drawn⟩ | kept := fbDraw_pixel_cases hl x y px py
    · rw [drawn, lit, Bool.true_xor, Bool.not_eq_false'] at dark
      exact ⟨r, row, c, px, py, hrow, hc, hat, lit, dark⟩
    · rw [kept, lit] at dark
      cases dark

/-- Each bit is its own inverse under XOR (R240). -/
theorem fbDraw_fbDraw (hl : sprite.length ≤ 32) : (fbDraw (fbDraw f x y sprite).fb x y sprite).fb = f := by
  refine Framebuffer.ext_pixel _ _ fun px py => ?_
  obtain ⟨r, row, c, -, -, -, drawn⟩ | kept := fbDraw_pixel_cases hl x y px py
  · rw [drawn, drawn, Bool.xor_assoc, Bool.xor_self, Bool.xor_false]
  · rw [kept, kept]

/-! ## A draw by the targets of its start (R234) -/

theorem targetX_of_mod_eq (h : x.toNat % 64 = x'.toNat % 64) (c : Nat) : targetX x c = targetX x' c :=
  Fin.ext (Nat.ModEq.add_right c h)

theorem targetY_of_mod_eq (h : y.toNat % 32 = y'.toNat % 32) (r : Nat) : targetY y r = targetY y' r :=
  Fin.ext (Nat.ModEq.add_right r h)

theorem drawColumns_congr (hx : ∀ c, targetX x c = targetX x' c) (py : Fin 32) (row : Byte) (c : Nat) (d : DrawState)
    (n : Nat) : drawColumns x py row c d n = drawColumns x' py row c d n := by
  induction n generalizing c d with
  | zero => rfl
  | succ n ih => rw [drawColumns, drawColumns, hx, ih]

theorem drawRows_congr (hx : ∀ c, targetX x c = targetX x' c) (hy : ∀ r, targetY y r = targetY y' r) (r : Nat)
    (d : DrawState) (sprite : List Byte) : drawRows x y r d sprite = drawRows x' y' r d sprite := by
  induction sprite generalizing r d with
  | nil => rfl
  | cons row rest ih => rw [drawRows, drawRows, hy, drawColumns_congr hx, ih]

/-! ## The read (R236) -/

theorem fbRead_eq_toList_flatten (f : Framebuffer) : fbRead f = f.rows.flatten.toList := by
  have rows : fbRead f = ((f.rows.toArray.map Vector.toArray).toList.map Array.toList).flatten := by
    rw [Array.toList_map, List.map_map]
    rfl
  exact rows.trans Array.toList_flatten.symm

/-! ## 00E0 and DXYN (R237, R238) -/

/-- The frame of an instruction that may change the framebuffer and the listed registers. -/
def PixelsAndRegisters (l : List Reg) (s t : State) : Prop :=
  SameRegsExcept l s t ∧ t.index = s.index ∧ t.stack = s.stack ∧ SameMemory s t ∧ t.draws = s.draws ∧
    Ticked s t ∧ Advanced s t ∧ Continued s t

/-- A new framebuffer adds nothing to what a write of the register file changes of the rest. -/
theorem pixelsAndRegisters_finish {l : List Reg} {w : Vector Byte 16} (hw : SameRegsExcept l s (s.setRegs w))
    (f : Framebuffer) (hpc : s.pc.toNat ≤ 4094) :
    PixelsAndRegisters l s (finish .increment ((s.setFb f).setRegs w)) := by
  obtain ⟨regs, index, stack, mem, -, draws, ticked, advanced, continued⟩ := registersOnly_setRegs hw hpc
  exact ⟨regs, index, stack, mem, draws, ticked, advanced, continued⟩

theorem exec_draw_of_inRange {x y : Reg} {n : Nibble} (h : n.toNat = 0 ∨ s.index.toNat + n.toNat - 1 ≤ 4095) :
    exec (.draw x y n) s = complete .increment
      ((s.setFb (fbDraw s.fb (s.getV x) (s.getV y) (spriteBytes n s)).fb).setV vf
        (collisionFlag (fbDraw s.fb (s.getV x) (s.getV y) (spriteBytes n s)).collision)) := by
  have inRange : rangeFault s.index.toNat n.toNat = none := (rangeFault_none_iff _ _).2 (by omega)
  simp only [exec, execDraw, indexAddr, Nat.add_zero, inRange]

@[simp] theorem length_spriteBytes (n : Nibble) (s : State) : (spriteBytes n s).length = n.toNat :=
  Memory.length_readBlock ..

theorem length_spriteBytes_le (n : Nibble) (s : State) : (spriteBytes n s).length ≤ 32 := by
  have := n.isLt
  rw [length_spriteBytes]
  omega

theorem getElem?_spriteBytes_eq_some {n : Nibble} :
    (spriteBytes n s)[r]? = some row ↔ r < n.toNat ∧ s.mem.read (s.index.toNat + r) = row := by
  rw [List.getElem?_eq_some_iff]
  simp [spriteBytes, Memory.getElem_readBlock]

/-- The collision of DXYN over the bytes in memory: a 1 bit of byte `I + r` on a lit pixel (R238, R239). -/
theorem fbDraw_spriteBytes_collision_iff {n : Nibble} :
    (fbDraw f x y (spriteBytes n s)).collision = true ↔
      ∃ r c px py, r < n.toNat ∧ c < 8 ∧ Lands x y c r px py ∧
        (s.mem.read (s.index.toNat + r)).getLsbD (7 - c) = true ∧ f.pixel px py = true := by
  rw [fbDraw_collision_iff (length_spriteBytes_le n s)]
  constructor
  · rintro ⟨r, row, c, px, py, hrow, hc, hat, lit, bit⟩
    obtain ⟨hr, rfl⟩ := getElem?_spriteBytes_eq_some.1 hrow
    exact ⟨r, c, px, py, hr, hc, hat, bit, lit⟩
  · rintro ⟨r, c, px, py, hr, hc, hat, bit, lit⟩
    exact ⟨r, _, c, px, py, getElem?_spriteBytes_eq_some.2 ⟨hr, rfl⟩, hc, hat, lit, bit⟩

theorem collisionFlag_toNat (hit : Bool) : (collisionFlag hit).toNat = if hit then 1 else 0 := flagByte_toNat hit

theorem collisionFlag_toNat_eq_one_or_zero (hit : Bool) :
    (collisionFlag hit).toNat = 1 ∨ (collisionFlag hit).toNat = 0 := by
  rw [collisionFlag_toNat]
  exact ite_eq_or_eq ..

theorem collisionFlag_toNat_eq_one_iff (hit : Bool) : (collisionFlag hit).toNat = 1 ↔ hit = true := by
  simp [collisionFlag_toNat]

end Sys2Proof.Machine

namespace Sys2Proof.Proofs

open Sys2Proof.Machine

/-- Settles O40: the draw is `fbDraw` of the N bytes at I, then VF takes the collision as 1 or 0. -/
theorem drawXorsTheSpriteIntoThePixels : Obligations.DrawXorsTheSpriteIntoThePixels := by
  intro x y n s hpc hr
  have short := length_spriteBytes_le n s
  have flag (f : Framebuffer) (b : Byte) : (finish .increment ((s.setFb f).setV vf b)).getV vf = b := by simp
  refine runs_of_complete (exec_draw_of_inRange hr) ⟨fun r c px py hr hc hat => ?_, fun px py outside => ?_, ?_, ?_,
    pixelsAndRegisters_finish (sameRegsExcept_setV s vf _) _ hpc⟩
  · exact fbDraw_pixel_of_lands short (getElem?_spriteBytes_eq_some.2 ⟨hr, rfl⟩) hc hat
  · exact fbDraw_pixel_of_no_cell fun r c hr => outside r c (by rwa [length_spriteBytes] at hr)
  · rw [flag]
    exact collisionFlag_toNat_eq_one_or_zero _
  · rw [flag, collisionFlag_toNat_eq_one_iff]
    exact fbDraw_spriteBytes_collision_iff

/-- Settles O41: each pixel is read and written once, so the draw is as if all rows were drawn at once. -/
theorem sequentialDrawEqualsRowParallelDatapath : Obligations.SequentialDrawEqualsRowParallelDatapath := by
  intro f x y sprite hl
  have short : sprite.length ≤ 32 := by omega
  exact ⟨fun r row c px py hrow hc hat => fbDraw_pixel_of_lands short hrow hc hat,
    fun px py outside => fbDraw_pixel_of_no_cell outside, fbDraw_collision_iff short⟩

/-- Settles O42: XOR with a 1 bit turns a lit pixel dark, and XOR with a 0 bit keeps it. -/
theorem collisionIffAPixelIsErased : Obligations.CollisionIffAPixelIsErased := by
  intro f x y sprite hl
  have short : sprite.length ≤ 32 := by omega
  refine ⟨fbDraw_collision_iff_erased short, fun r row c px py hrow hc hat bit => ?_⟩
  rw [fbDraw_pixel_of_lands short hrow hc hat, bit, Bool.xor_false]

/-- Settles O43: the start enters a draw through its targets alone, and these depend on it modulo 64 and 32. -/
theorem drawWrapsTheStart : Obligations.DrawWrapsTheStart := by
  intro f x x' y y' sprite hx hy
  refine ⟨drawRows_congr (targetX_of_mod_eq hx) (targetY_of_mod_eq hy) 0 ⟨f, false⟩ sprite, fun c r => ⟨?_, ?_⟩⟩
  · rw [targetX_val, ← hx, Nat.mod_add_mod]
  · rw [targetY_val, ← hy, Nat.mod_add_mod]

/-- Settles O44: the second draw undoes the first, so what it erases is what the first lit. -/
theorem drawingTwiceRestoresTheFramebuffer : Obligations.DrawingTwiceRestoresTheFramebuffer := by
  intro f x y sprite hl
  have short : sprite.length ≤ 32 := by omega
  refine ⟨fbDraw_fbDraw short, ?_, ?_⟩
  · simp only [fbDraw_collision_iff_erased short, fbDraw_fbDraw short, and_comm]
  · refine Bool.eq_false_iff.2 fun hit => ?_
    obtain ⟨px, py, lit, -⟩ := (fbDraw_collision_iff_erased short).1 hit
    simp at lit

/-- Settles O45: the read is the rows one after another, 64 pixels each. -/
theorem readIsRowMajorFromTheTopLeft : Obligations.ReadIsRowMajorFromTheTopLeft := by
  intro f
  rw [fbRead_eq_toList_flatten]
  refine ⟨Vector.length_toList, fun px py => ?_⟩
  have inside : py.val * 64 + px.val < 32 * 64 := by omega
  have rowIndex : (py.val * 64 + px.val) / 64 = py.val := by omega
  have column : (py.val * 64 + px.val) % 64 = px.val := by omega
  rw [Vector.getElem?_toList, Vector.getElem?_flatten, dif_pos inside]
  simp only [rowIndex, column, Framebuffer.pixel]

/-- Settles O39: the one write is the cleared framebuffer. -/
theorem clearScreenClearsEveryPixel : Obligations.ClearScreenClearsEveryPixel := fun s hpc =>
  runs_of_complete rfl
    ⟨pixel_fbClear, pixelsAndRegisters_finish (w := s.v) (sameRegsExcept_refl [] s) fbClear hpc⟩

end Sys2Proof.Proofs

/-! # Timers and key wait (46_timers_keypad.md) -/

namespace Sys2Proof.Machine

variable {i : Instr} {s : State} {x : Reg} {k : Fin 16} {K : Keypad} {delay sound : Byte}

/-! ## The frame of an instruction that writes timers (R106) -/

/-- The frame of an instruction that may change the timers; their values are left to the statement. -/
def TimersOnly (s t : State) : Prop :=
  SameRegsExcept [] s t ∧ t.index = s.index ∧ t.stack = s.stack ∧ SameMemory s t ∧ SamePixels s t ∧
    t.draws = s.draws ∧ Advanced s t ∧ Continued s t

/-- Writes to the timers add nothing to what an instruction without a write changes of the rest. -/
theorem timersOnly_finish (delay sound : Byte) (hpc : s.pc.toNat ≤ 4094) :
    TimersOnly s (finish .increment ((s.setDelay delay).setSound sound)) := by
  obtain ⟨regs, index, stack, mem, pixels, draws, -, advanced, continued⟩ :=
    registersOnly_setRegs (w := s.v) (sameRegsExcept_refl [] s) hpc
  exact ⟨regs, index, stack, mem, pixels, draws, advanced, continued⟩

/-- An instruction whose writes are the timers: both count down from what it wrote. -/
theorem runs_of_setTimers (h : exec i s = complete .increment ((s.setDelay delay).setSound sound))
    (hpc : s.pc.toNat ≤ 4094) :
    Runs i s fun t => t.delay.toNat = delay.toNat - 1 ∧ t.sound.toNat = sound.toNat - 1 ∧ TimersOnly s t :=
  runs_of_complete h ⟨countDown_toNat delay, countDown_toNat sound, timersOnly_finish delay sound hpc⟩

/-! ## FX0A, by the snapshot (R263) -/

/-- The converse of `lowest_some`: a key found that is not `k` would be a pressed key below `k`, or have the pressed
key `k` below it. -/
theorem lowest_eq_some_of_pressed (hk : K.pressed k = true) (below : ∀ j, j < k → K.pressed j = false) :
    K.lowest = some k := by
  cases h : K.lowest with
  | none => exact nomatch hk.symm.trans ((lowest_none_iff K).1 h k)
  | some j =>
    obtain ⟨hj, belowJ⟩ := lowest_some K j h
    rcases lt_trichotomy j k with hlt | rfl | hgt
    · exact nomatch hj.symm.trans (below j hlt)
    · rfl
    · exact nomatch hk.symm.trans (belowJ k hgt)

theorem exec_waitKey_of_lowest (h : s.snapshot.lowest = some k) :
    exec (.waitKey x) s = complete .increment (s.setV x (BitVec.ofNat 8 k.val)) := by
  simp only [exec, execWaitKey, waitKey, h]

theorem exec_waitKey_of_no_key (h : s.snapshot.lowest = none) : exec (.waitKey x) s = complete .halt s := by
  simp only [exec, execWaitKey, waitKey, h]

theorem keyByte_toNat (k : Fin 16) : (BitVec.ofNat 8 k.val).toNat = k.val := by
  rw [BitVec.toNat_ofNat]
  exact Nat.mod_eq_of_lt (k.isLt.trans (by decide))

end Sys2Proof.Machine

namespace Sys2Proof.Proofs

open Sys2Proof.Machine

/-- Settles O46: FX07 writes VX alone, from the delay before the step; FX15 and FX18 write one timer, from which the
end of the step counts down, and leave the other as it was. -/
theorem timerInstructions : Obligations.TimerInstructions := fun _ _ hpc =>
  ⟨runs_of_setV rfl hpc, runs_of_setTimers rfl hpc,
    (runs_of_setTimers rfl hpc).mono fun _ ⟨delay, sound, frame⟩ => ⟨sound, delay, frame⟩⟩

/-- Settles O47: the scan answers the lowest pressed key, which is then the one write, or none, and then `Halt` writes
the returned status alone. -/
theorem waitKeyTakesTheLowestOrBlocks : Obligations.WaitKeyTakesTheLowestOrBlocks := by
  intro x s
  constructor
  · intro k hpc hk below
    refine (runs_of_setV (exec_waitKey_of_lowest (lowest_eq_some_of_pressed hk below)) hpc).mono ?_
    rintro t ⟨hx, frame⟩
    exact ⟨hx ▸ keyByte_toNat k, frame⟩
  · intro released
    have noKey : s.snapshot.lowest = none := (lowest_none_iff s.snapshot).2 released
    have block : SameBlock s (finish .halt s) := ⟨rfl, rfl, rfl, rfl, rfl, rfl, rfl, rfl⟩
    exact runs_of_complete (exec_waitKey_of_no_key noKey) ⟨rfl, block, rfl, sameHost_refl s, rfl⟩

end Sys2Proof.Proofs

/-! # The listener and the emulation loop (60_exceptions.md R317 to R325) -/

namespace Sys2Proof.Machine

variable {i : Instr} {s t : State} {x : Reg} {k : Fin 16}

/-! ## The schedule of key characters, which no instruction reads (log 3) -/

/-- `s` with another schedule of the listener and another count of iterations. -/
def State.withSchedule (s : State) (l : List Config.KeyInput) (n : Nat) : State :=
  { s with inputs := l, iterations := n }

theorem exec_withSchedule (l : List Config.KeyInput) (n : Nat) (h : exec i s = .next t) :
    exec i (s.withSchedule l n) = .next (t.withSchedule l n) := by
  have failed {k : FaultKind} (h : raise k s = .next t) :
      raise k (s.withSchedule l n) = .next (t.withSchedule l n) := by
    obtain rfl := Host.Outcome.next.inj h
    rfl
  have done {e : Effect} {u : State} (h : complete e u = .next t) :
      complete e (u.withSchedule l n) = .next (t.withSchedule l n) := by
    obtain rfl := Host.Outcome.next.inj h
    cases e <;> rfl
  revert h
  cases i with
  | ret =>
    simp only [exec, execRet, State.withSchedule]
    cases pop s.stack with
    | some p => exact done
    | none => exact failed
  | call nnn =>
    simp only [exec, execCall, State.withSchedule]
    cases push s.stack (s.pc + 2#16) with
    | some stack => exact done
    | none => exact failed
  | skipKey x | skipNotKey x =>
    simp only [exec, execSkipKey, execSkipNotKey, State.getV, State.withSchedule]
    cases keyNumber s.v[x.val] with
    | some k => exact done
    | none => exact failed
  | addIndex x =>
    rcases Nat.lt_or_ge 0xFFFF (s.index.toNat + (s.getV x).toNat) with above | fits
    · rw [exec_addIndex_of_overflow above, exec_addIndex_of_overflow (s := s.withSchedule l n) above]
      exact failed
    · rw [exec_addIndex_of_fits fits, exec_addIndex_of_fits (s := s.withSchedule l n) fits]
      exact done
  | storeBcd x =>
    simp only [exec, execStoreBcd, State.withSchedule]
    cases rangeFault (indexAddr s 0) 3 with
    | some a => exact failed
    | none => exact done
  | storeRegs x | loadRegs x =>
    simp only [exec, execStoreRegs, execLoadRegs, State.withSchedule]
    cases rangeFault (indexAddr s 0) (x.val + 1) with
    | some a => exact failed
    | none => exact done
  | draw x y m =>
    simp only [exec, execDraw, State.withSchedule]
    cases rangeFault (indexAddr s 0) m.toNat with
    | some a => exact failed
    | none => exact done
  | waitKey x =>
    simp only [exec, execWaitKey, waitKey, State.withSchedule]
    cases s.snapshot.lowest with
    | some k => exact done
    | none => exact done
  | _ => exact done

/-- The fetch and the decoder do not read it either. -/
theorem executeOne_withSchedule (l : List Config.KeyInput) (n : Nat) (h : executeOne s = .next t) :
    executeOne (s.withSchedule l n) = .next (t.withSchedule l n) := by
  have hf : fetchFault (s.withSchedule l n) = fetchFault s := rfl
  have hw : fetchedWord (s.withSchedule l n) = fetchedWord s := rfl
  unfold executeOne at h ⊢
  rw [hf, hw]
  split at h
  · cases h
    rfl
  · split at h
    · cases h
      rfl
    · exact exec_withSchedule l n h

theorem answer_withSchedule (s : State) (l : List Config.KeyInput) (n : Nat) :
    answer (s.withSchedule l n) = (answer s).withSchedule l n := by
  have hr : (s.withSchedule l n).returned = s.returned := rfl
  unfold answer
  rw [hr]
  split <;> rfl

/-! ## The end of a step, between the loop and the listener (R318, R320) -/

/-- A slot is true after some characters if it was before, or one of them is its character (R325). -/
theorem hear_keypad_iff (cs : List Char) (s : State) (k : Fin 16) :
    (hear cs s).keypad[k.val] = true ↔
      s.keypad[k.val] = true ∨ ∃ c ∈ cs, keyOfChar s.params.uppercaseHexKeys c = some k :=
  pressed_listenAll s.params.uppercaseHexKeys cs s.keypad k

/-- Continue clears the keypad whatever came during the step, so its Toggles are lost (R349). -/
theorem answer_hear_of_continued (cs : List Char) (h : s.returned = some .continued) :
    answer (hear cs s) = answer s := by
  rw [answer_of_continued (hear cs s) h, answer_of_continued s h]
  rfl

/-- Without Continue the loop does nothing, before Toggles or after them. -/
theorem answer_hear_of_not_continued (cs : List Char) (h : s.returned ≠ some .continued) :
    answer (hear cs s) = hear cs (answer s) := by
  rw [answer_of_not_continued (hear cs s) h, answer_of_not_continued s h]

theorem endIteration_eq (s : State) :
    endIteration s =
      (answer (hear (currentInput s).during s)).withSchedule s.inputs.tail (s.iterations + 1) := by
  obtain ⟨-, -, -, -, -, inputs, iterations, -⟩ := answer_block (hear (currentInput s).during s)
  rw [endIteration, nextInput, inputs, iterations]
  rfl

theorem endIteration_withSchedule (s : State) (cs cs' : List Char) (rest : List Config.KeyInput) (n : Nat) :
    endIteration (s.withSchedule (⟨cs, cs'⟩ :: rest) n) = (answer (hear cs' s)).withSchedule rest (n + 1) := by
  rw [endIteration_eq]
  exact (congrArg (State.withSchedule · rest (n + 1)) (answer_withSchedule (hear cs' s) (⟨cs, cs'⟩ :: rest) n) :)

/-- `execute_one` uses up no key characters. -/
theorem currentInput_of_executeOne (h : executeOne s = .next t) : currentInput t = currentInput s := by
  obtain ⟨-, -, -, inputs, iterations, -⟩ := executeOne_sameHost h
  rw [currentInput, currentInput, inputs, iterations]

/-- Characters heard during a step are Toggles after the loop's answer, none of them after Continue. -/
theorem answer_hear_eq_listenerSteps (cs : List Char) (s : State) :
    ∃ ks, answer (hear cs s) = listenerSteps ks (answer s) ∧ (s.returned = some .continued → ks = []) := by
  by_cases hc : s.returned = some .continued
  · exact ⟨[], answer_hear_of_continued cs hc, fun _ => rfl⟩
  · obtain ⟨ks, heard⟩ := hear_eq_listenerSteps cs (answer s)
    exact ⟨ks, (answer_hear_of_not_continued cs hc).trans heard, fun h => absurd h hc⟩

/-- Toggles after the loop's answer, none of them after Continue, come from characters heard during the step. -/
theorem listenerSteps_eq_answer_hear {ks : List (Fin 16)} (h : s.returned = some .continued → ks = []) :
    ∃ cs, listenerSteps ks (answer s) = answer (hear cs s) := by
  by_cases hc : s.returned = some .continued
  · obtain rfl := h hc
    exact ⟨[], rfl⟩
  · obtain ⟨cs, heard⟩ := listenerSteps_eq_hear ks (answer s)
    exact ⟨cs, heard.trans (answer_hear_of_not_continued cs hc).symm⟩

/-! ## The loop's own step (R320) -/

theorem sameBlock_refl (s : State) : SameBlock s s := ⟨rfl, rfl, rfl, rfl, rfl, rfl, rfl, rfl⟩

theorem loopStep_snapshot (h : loopStep s = .next t) : t.snapshot = s.keypad := by
  obtain ⟨-, u, hu, rfl⟩ := loopStep_cases h
  obtain ⟨-, snapshot, -⟩ := executeOne_sameHost hu
  obtain ⟨-, -, -, -, -, -, -, kept⟩ := answer_block u
  exact kept.trans snapshot

/-- The snapshot changes nothing that the fetch and the decoder read. -/
theorem loopStep_of_fetches (hf : Fetches s i) (he : exec i (takeSnapshot s) = .next t) :
    loopStep s = .next (answer t) := by
  have fetched : Fetches (takeSnapshot s) i := hf
  exact loopStep_of_running hf.1 ((executeOne_of_fetches fetched).trans he)

/-- A step under a given schedule is the loop's step after the characters before the snapshot, and then the answer to
those during it. -/
theorem step_of_executeOne {cs : List Char} (cs' : List Char) (hr : s.status = .running)
    (h : executeOne (takeSnapshot (hear cs s)) = .next t) :
    step { s with inputs := [⟨cs, cs'⟩] } = .next ((answer (hear cs' t)).withSchedule [] (s.iterations + 1)) := by
  have run := executeOne_withSchedule [⟨cs, cs'⟩] s.iterations h
  rw [← endIteration_withSchedule t cs cs' [] s.iterations]
  exact step_of_running (s := { s with inputs := [⟨cs, cs'⟩] }) hr run

/-! ## The wait in FX0A (R263, R321) -/

/-- FX0A without a key toggled polls: the loop's step leaves all but the snapshot and the returned status. -/
theorem loopStep_of_waitKey_released (hf : Fetches s (.waitKey x)) (released : s.keypad.lowest = none) :
    loopStep s = .next (finish .halt (takeSnapshot s)) :=
  loopStep_of_fetches hf (exec_waitKey_of_no_key (s := takeSnapshot s) released)

/-- FX0A with a key toggled completes. -/
theorem loopStep_of_waitKey_pressed (hf : Fetches s (.waitKey x)) (pressed : s.keypad.pressed k = true) :
    ∃ t, loopStep s = .next t ∧ t.returned = some .continued := by
  obtain ⟨j, hj⟩ : ∃ j, s.keypad.lowest = some j := by
    refine Option.ne_none_iff_exists'.1 fun released => ?_
    exact nomatch pressed.symm.trans ((lowest_none_iff s.keypad).1 released k)
  exact ⟨_, loopStep_of_fetches hf (exec_waitKey_of_lowest (s := takeSnapshot s) hj), rfl⟩

end Sys2Proof.Machine

namespace Sys2Proof.Proofs

open Sys2Proof.Machine

/-- Settles O51: `execute_one` leaves the snapshot and the keypad as the start of the step set them, and the end of the
step clears the keypad on Continue and adds the characters of the step to it otherwise. -/
theorem keypadFollowsTheSchedulerIteration : Obligations.KeypadFollowsTheSchedulerIteration := by
  intro s t _ h
  obtain ⟨-, u, hu, rfl⟩ := step_cases h
  obtain ⟨keypad, snapshot, rendered, inputs, iterations, params⟩ := executeOne_sameHost hu
  obtain ⟨-, -, hreturned, hparams, -, hinputs, hiterations, hsnapshot⟩ := endIteration_block u
  rw [hreturned, hparams, hinputs, hiterations, hsnapshot, inputs, iterations, params]
  refine ⟨fun k => ?_, fun hc => ?_, fun hc => ?_, rfl, rfl, rfl⟩
  · rw [snapshot]
    exact hear_keypad_iff (currentInput s).before s k
  · rw [endIteration_eq, answer_hear_of_continued _ hc, answer_of_continued u hc]
    exact ⟨pressed_clearAll, rfl⟩
  · rw [endIteration_eq, answer_hear_of_not_continued _ hc, answer_of_not_continued u hc]
    refine ⟨rendered, fun k => (hear_keypad_iff (currentInput u).during u k).trans ?_⟩
    rw [keypad, params, currentInput_of_executeOne hu, snapshot]
    rfl

/-- Settles O58: the characters heard before the snapshot and during the step are Toggles on either side of the loop's
step, and any Toggles come from characters, which `execute_one` does not read. -/
theorem stepIsTheInterleavingOfItsTwoAgents : Obligations.StepIsTheInterleavingOfItsTwoAgents := by
  refine fun s => ⟨fun t h => ?_, fun ks ks' u h hc => ?_⟩
  · obtain ⟨hr, v, hv, rfl⟩ := step_cases h
    obtain ⟨-, -, -, inputs, iterations, -⟩ := executeOne_sameHost hv
    obtain ⟨-, -, hreturned, -⟩ := endIteration_block v
    obtain ⟨ks, before⟩ := hear_eq_listenerSteps (currentInput s).before s
    obtain ⟨ks', during, hks'⟩ := answer_hear_eq_listenerSteps (currentInput v).during v
    have looped : loopStep (listenerSteps ks s) = .next (answer v) := by
      rw [← before]
      exact loopStep_of_running hr hv
    refine ⟨ks, ks', answer v, looped, ?_, fun hc => hks' (hreturned.symm.trans hc)⟩
    rw [endIteration_eq, during, inputs, iterations]
    rfl
  · obtain ⟨cs, before⟩ := listenerSteps_eq_hear ks s
    rw [before] at h
    obtain ⟨hr, v, hv, rfl⟩ := loopStep_cases h
    obtain ⟨-, -, hreturned, -⟩ := answer_block v
    rw [hreturned] at hc
    obtain ⟨cs', during⟩ := listenerSteps_eq_answer_hear hc
    rw [during]
    exact ⟨cs, cs', step_of_executeOne cs' hr hv⟩

/-- Settles O60: each poll leaves the machine waiting with no key toggled, and a Toggle leaves a key for FX0A to
find. -/
theorem waitingEndsExactlyByAToggle : Obligations.WaitingEndsExactlyByAToggle := by
  intro s x hf
  constructor
  · intro released n
    induction n generalizing s with
    | zero => exact ⟨s, rfl, sameBlock_refl s, rfl, released⟩
    | succ n ih =>
      obtain ⟨t, run, unchanged⟩ := ih (finish .halt (takeSnapshot s)) hf released
      have polled := loopStep_of_waitKey_released hf ((lowest_none_iff s.keypad).2 released)
      exact ⟨t, (loopSteps_succ polled).trans run, unchanged⟩
  · intro k
    have toggled : (listenerStep k s).keypad.pressed k = true := by simp [pressed_toggle]
    exact loopStep_of_waitKey_pressed hf toggled

/-- Settles O52: each range of codes that the listener reads lies at a fixed distance from the keys, and no code lies in
two of them. -/
theorem keyCharactersMapToKeys : Obligations.KeyCharactersMapToKeys := by
  intro u c k
  have hk := k.isLt
  rw [show '0'.toNat = 48 from rfl, show 'a'.toNat = 97 from rfl, show 'A'.toNat = 65 from rfl]
  unfold keyOfChar
  split_ifs with digit lower upper
  · rw [Option.some_inj, Fin.ext_iff, Fin.val_ofNat]
    omega
  · rw [Option.some_inj, Fin.ext_iff, Fin.val_ofNat]
    omega
  · obtain ⟨rfl, range⟩ := upper
    simp only [Option.some_inj, Fin.ext_iff, Fin.val_ofNat, true_and]
    omega
  · refine ⟨nofun, ?_⟩
    rintro (isDigit | isLower | ⟨hk10, accepted, isUpper⟩)
    · omega
    · omega
    · exact absurd ⟨accepted, by omega, by omega⟩ upper

/-- Settles O59: the step is one Toggle of the keypad array, which the invariant does not speak of and the next
snapshot copies. -/
theorem listenerStepTogglesOneKey : Obligations.ListenerStepTogglesOneKey := by
  intro k s
  have slot (j : Fin 16) : (listenerStep k s).keypad[j.val] = (decide (j = k) || s.keypad[j.val]) :=
    pressed_listenerStep k j s
  have own : (listenerStep k s).keypad[k.val] = true := by rw [slot, decide_eq_true rfl, Bool.true_or]
  refine ⟨own, fun j hj => ?_, ⟨_, rfl⟩, fun h => ?_, fun t h => loopStep_snapshot h ▸ own⟩
  · rw [slot, decide_eq_false hj, Bool.false_or]
  · have block : SameBlock s (listenerStep k s) := sameBlock_refl s
    exact h.of_sameBlock block rfl rfl

end Sys2Proof.Proofs

/-! # A block with an address above 4095 (60_exceptions.md R304) -/

namespace Sys2Proof.Machine

variable {s : State} {x y : Reg}

theorem exec_storeBcd_of_outOfRange (h : 4095 < s.index.toNat + 2) :
    exec (.storeBcd x) s = raise (.memoryOutOfRange (max s.index.toNat 4096)) s := by
  have outOfRange := rangeFault_eq_some s.index.toNat 3 (by decide) h
  simp only [exec, execStoreBcd, indexAddr, Nat.add_zero, outOfRange]

theorem rangeFault_register_block_of_outOfRange (h : 4095 < s.index.toNat + x.val) :
    rangeFault s.index.toNat (x.val + 1) = some (max s.index.toNat 4096) :=
  rangeFault_eq_some _ _ x.val.succ_pos h

theorem exec_storeRegs_of_outOfRange (h : 4095 < s.index.toNat + x.val) :
    exec (.storeRegs x) s = raise (.memoryOutOfRange (max s.index.toNat 4096)) s := by
  simp only [exec, execStoreRegs, indexAddr, Nat.add_zero, rangeFault_register_block_of_outOfRange h]

theorem exec_loadRegs_of_outOfRange (h : 4095 < s.index.toNat + x.val) :
    exec (.loadRegs x) s = raise (.memoryOutOfRange (max s.index.toNat 4096)) s := by
  simp only [exec, execLoadRegs, indexAddr, Nat.add_zero, rangeFault_register_block_of_outOfRange h]

theorem exec_draw_of_outOfRange {n : Nibble} (h0 : 0 < n.toNat) (h : 4095 < s.index.toNat + n.toNat - 1) :
    exec (.draw x y n) s = raise (.memoryOutOfRange (max s.index.toNat 4096)) s := by
  have outOfRange := rangeFault_eq_some s.index.toNat n.toNat h0 h
  simp only [exec, execDraw, indexAddr, Nat.add_zero, outOfRange]

end Sys2Proof.Machine

namespace Sys2Proof.Proofs

open Sys2Proof.Machine

/-- Settles O36: the range check of each instruction answers the lowest address above 4095, and the fault is raised at
the state before any write. -/
theorem blockBeyondMemoryFaults : Obligations.BlockBeyondMemoryFaults := fun _ _ _ _ =>
  ⟨fun h => runs_of_raise (exec_storeBcd_of_outOfRange h),
    fun h => ⟨runs_of_raise (exec_storeRegs_of_outOfRange h), runs_of_raise (exec_loadRegs_of_outOfRange h)⟩,
    fun h0 h => runs_of_raise (exec_draw_of_outOfRange h0 h)⟩

end Sys2Proof.Proofs

/-! # Reset, the load of a ROM, and the delay timer along a run (70_reset_and_hazards.md) -/

namespace Sys2Proof.Machine

variable {i : Instr} {s t u : State} {x : Reg} {k : Nat} {rom : List Byte}

/-! ## The load of a ROM (R341, R342) -/

theorem loadRom_of_fits (h : rom.length ≤ 3584) :
    loadRom rom s = .loaded (s.setMem (s.mem.writeBlock 512 rom)) := if_pos h

theorem loadRom_of_tooLong (h : 3584 < rom.length) : loadRom rom s = .loadError := if_neg (Nat.not_le.2 h)

theorem loadRom_eq_loaded (h : loadRom rom s = .loaded t) :
    rom.length ≤ 3584 ∧ t = s.setMem (s.mem.writeBlock 512 rom) := by
  rcases Nat.lt_or_ge 3584 rom.length with hlong | hfits
  · rw [loadRom_of_tooLong hlong] at h
    cases h
  · rw [loadRom_of_fits hfits] at h
    exact ⟨hfits, (LoadResult.loaded.inj h).symm⟩

/-- The largest ROM ends at the last address that exists. -/
theorem wf_writeBlock_rom (hm : s.mem.wf) (h : rom.length ≤ 3584) : (s.mem.writeBlock 512 rom).wf :=
  Memory.wf_writeBlock rom s.mem hm 512 (Nat.add_le_add_left h 512)

/-! ## The memory after power on (R51, R340) -/

theorem powerOn_mem_wf (p : Config.Params) (fontBytes : Vector Byte 80) : (powerOn p fontBytes).mem.wf :=
  Memory.wf_writeBlock _ _ memory_empty_wf 0 (by simp)

theorem powerOn_read_font (p : Config.Params) (fontBytes : Vector Byte 80) {a : Nat} (h : a < 80) :
    (powerOn p fontBytes).mem.read a = fontBytes[a] := by
  have inside : a < fontBytes.toList.length := by simpa using h
  have read := Memory.read_writeBlock_inside fontBytes.toList State.reset.mem .nil 0 a inside
  rw [Nat.zero_add, Vector.getElem_toList] at read
  exact read

theorem powerOn_read_above_font (p : Config.Params) (fontBytes : Vector Byte 80) {a : Nat} (h : 80 ≤ a) :
    (powerOn p fontBytes).mem.read a = 0 := by
  have outside : a < 0 ∨ 0 + fontBytes.toList.length ≤ a := .inr (by simpa using h)
  exact (Memory.read_writeBlock_outside fontBytes.toList State.reset.mem 0 a outside).trans
    (background_above_font a h)

/-! ## The invariant before the first step -/

/-- Of a machine that is Running at 512 with an empty stack, the invariant asks a canonical memory alone. -/
theorem State.inv_of_start (hm : s.mem.wf) (hstack : s.stack = []) (hpc : s.pc = 0x200#16)
    (hr : s.status = .running) : s.Inv where
  memWf := hm
  stackDepth := by simp [hstack]
  stackExact := by simp [hstack]
  pcExact := by simp [hpc]
  faultHere := by simp [hr]

/-! ## The delay timer along a run (R106, R107, R350) -/

@[simp] theorem endIteration_delay (s : State) : (endIteration s).delay = s.delay := by
  obtain ⟨⟨-, -, -, -, hdelay, -⟩, -⟩ := endIteration_block s
  exact hdelay

@[simp] theorem endIteration_returned (s : State) : (endIteration s).returned = s.returned := by
  obtain ⟨-, -, hreturned, -⟩ := endIteration_block s
  exact hreturned

@[simp] theorem getV_endIteration (s : State) (r : Reg) : (endIteration s).getV r = s.getV r := by
  obtain ⟨⟨hv, -⟩, -⟩ := endIteration_block s
  simp only [State.getV, hv]

/-- A step executes the fetched instruction between the two ends of an iteration. -/
theorem step_cases_of_fetches (hf : Fetches s i) (h : step s = .next t) :
    ∃ u, exec i (beginIteration s) = .next u ∧ t = endIteration u := by
  obtain ⟨-, u, hu, rfl⟩ := step_cases h
  rw [executeOne_of_fetches ((fetches_beginIteration s i).2 hf)] at hu
  exact ⟨u, hu, rfl⟩

theorem step_setDelay_delay (hf : Fetches s (.setDelay x)) (h : step s = .next t) :
    t.delay = countDown (s.getV x) := by
  obtain ⟨u, hu, rfl⟩ := step_cases_of_fetches hf h
  obtain rfl := Host.Outcome.next.inj hu
  simp

theorem step_readDelay_getV (hf : Fetches s (.readDelay x)) (h : step s = .next t) : t.getV x = s.delay := by
  obtain ⟨u, hu, rfl⟩ := step_cases_of_fetches hf h
  obtain rfl := Host.Outcome.next.inj hu
  simp

theorem step_delay_of_completed (h : step s = .next t) (hr : t.returned = some .continued)
    (other : ∀ x, ¬ Fetches s (.setDelay x)) : t.delay = countDown s.delay := by
  obtain ⟨running, u, hu, rfl⟩ := step_cases h
  rw [endIteration_returned] at hr
  rw [endIteration_delay]
  cases executeOne_cases hu with
  | fault k => cases hr
  | ran i _ hf hd he _ =>
    have notSetDelay : ∀ x, i ≠ .setDelay x := by
      rintro x rfl
      exact other x ⟨running, hf, hd⟩
    obtain ⟨counted, -⟩ := (exec_completed he hr).timers
    rw [counted, delayLeft_of_ne _ notSetDelay, beginIteration_delay]

theorem step_delay_of_blocked (h : step s = .next t) (hr : t.returned = some .blockForIO) : t.delay = s.delay := by
  obtain ⟨-, u, hu, rfl⟩ := step_cases h
  rw [endIteration_returned] at hr
  rw [endIteration_delay]
  rcases executeOne_ends hu with ⟨k, rfl⟩ | ⟨rfl, -⟩ | ⟨hc, -⟩
  · cases hr
  · rfl
  · exact nomatch hc.symm.trans hr

/-- A run counts the delay timer down once for each of its completed steps, floored at 0. -/
theorem DelayRun.delay_toNat (h : DelayRun k s t) : t.delay.toNat = s.delay.toNat - k := by
  induction h with
  | start s => rfl
  | completed run ret other _ ih =>
    rw [ih, step_delay_of_completed run ret other, countDown_toNat]
    omega
  | blocked run ret _ ih => rw [ih, step_delay_of_blocked run ret]

end Sys2Proof.Machine

namespace Sys2Proof.Proofs

open Sys2Proof.Machine

/-- Settles O48: FX15 itself counts down once from VX, the run once for each completed step, and FX07 reads what is
left. -/
theorem delayReadAfterCompletedSteps : Obligations.DelayReadAfterCompletedSteps := by
  intro x y k s u t w hset hstep run hread hlast
  calc (w.getV y).toNat
      = t.delay.toNat := by rw [step_readDelay_getV hread hlast]
    _ = u.delay.toNat - k := run.delay_toNat
    _ = (s.getV x).toNat - 1 - k := by rw [step_setDelay_delay hset hstep, countDown_toNat]
    _ = (s.getV x).toNat - (k + 1) := by omega

/-- Settles O53: the load is one block write from 512, which ends within memory where the ROM fits; with no ROM the two
bytes at 512 are the zeros of the reset image, and 0x0000 is illegal. -/
theorem romLoadsVerbatimOrNotAtAll : Obligations.RomLoadsVerbatimOrNotAtAll := by
  intro rom s hm
  refine ⟨fun hfits => ⟨s.mem.writeBlock 512 rom, loadRom_of_fits hfits, wf_writeBlock_rom hm hfits, ?_, ?_⟩,
    loadRom_of_tooLong, ?_⟩
  · intro i b hb
    obtain ⟨hi, rfl⟩ := List.getElem?_eq_some_iff.1 hb
    exact Memory.read_writeBlock_inside rom s.mem hm.1 512 i hi
  · exact fun a => Memory.read_writeBlock_outside rom s.mem 512 a
  · intro t ht
    obtain ⟨-, rfl⟩ := loadRom_eq_loaded ht
    have noRom : wordAtPc (State.reset.setMem (State.reset.mem.writeBlock 512 [])) = 0x0000 := by decide
    rw [noRom]
    exact decode_of_illegalWord (.inl (by decide))

/-- Settles O54: the font is one block write from 0 over an all-zero image, and every other field is that of
`State.reset`. -/
theorem powerOnPlacesFontAndParameters : Obligations.PowerOnPlacesFontAndParameters := by
  intro p fontBytes
  have registers : ∀ r : Reg, (powerOn p fontBytes).getV r = 0 := fun r => Vector.getElem_replicate r.isLt
  have pixels : ∀ px py, (powerOn p fontBytes).fb.pixel px py = false := pixel_fbClear
  have keys : ∀ k : Fin 16, (powerOn p fontBytes).keypad[k.val] = false := fun k => Vector.getElem_replicate k.isLt
  exact ⟨fun a h => powerOn_read_font p fontBytes h, fun a h _ => powerOn_read_above_font p fontBytes h, rfl, rfl,
    registers, rfl, rfl, rfl, rfl, pixels, keys, rfl⟩

/-- Settles O13: at each of the starts the machine is Running at 512 with an empty stack, and the font and the ROM are
written within memory. -/
theorem resetMeetsTheStateInvariant : Obligations.ResetMeetsTheStateInvariant := by
  refine ⟨State.inv_of_start memory_empty_wf rfl rfl rfl, fun p fontBytes =>
    ⟨State.inv_of_start (powerOn_mem_wf p fontBytes) rfl rfl rfl, ?_⟩⟩
  intro rom t ht
  obtain ⟨hfits, rfl⟩ := loadRom_eq_loaded ht
  exact State.inv_of_start (wf_writeBlock_rom (powerOn_mem_wf p fontBytes) hfits) rfl rfl rfl

end Sys2Proof.Proofs
